-- ==== Sys2Proof/Word.lean ====
section
/-! DEFINITION. The byte and the byte sequence (spec/00_scope.md R6, R7). -/

namespace Sys2Proof

/-- A byte: an unsigned 8-bit value, bit 0 its least significant bit (R6). -/
abbrev Byte := BitVec 8

/-- A byte sequence: finite, ordered, offsets from zero (R7).
Chunks, the FrameBuffer, frames and acknowledgement frames are all of this type (R29). -/
abbrev Bytes := List Byte

/-- A frame as it lies on the wire (R80); a value nothing writes once it is made (R29). -/
abbrev Frame := Bytes

end Sys2Proof
end

