-- ==== Sys2Proof/Config.lean ====
section
/-! DEFINITION. The OPEN parameters of FDR (spec/00_scope.md R5, spec/93_implementation_defined.md part 2).
They are fixed when an instance is built (R27) and no operation writes them. They are held as a field of State that
nothing updates, so that every statement over all states is a statement over all parameter values. -/

namespace Sys2Proof

/-- `ID_DIGIT_ORDER`: the order in which the two nibbles of an identifier byte become digits (R5, R52, R189). -/
inductive DigitOrder where
  /-- Low nibble first, then high nibble: the document's rule and the default. -/
  | lowFirst
  /-- High nibble first: what the document's section 8 example needs (90_conflicts.md C1). -/
  | highFirst
  deriving DecidableEq, Repr

/-- `XOR_FROM`: the first offset of the span of the inbound XOR checksum, one of 2, 3, 4 (R5, R172). -/
inductive XorFrom where
  /-- Offset 2: length byte, message type, type-specific body (the default). -/
  | lengthByte
  /-- Offset 3: message type, type-specific body. -/
  | messageType
  /-- Offset 4: type-specific body only. -/
  | body
  deriving DecidableEq, Repr

/-- The parameters of one FDR instance (R5). -/
structure Params where
  /-- `BUF_CAP`: `none` is the unbounded ("growable") buffer, `some c` a capacity of `c` bytes. -/
  bufCap : Option Nat
  /-- `XOR_FROM`. -/
  xorFrom : XorFrom
  /-- `ID_DIGIT_ORDER`. -/
  idDigitOrder : DigitOrder
  deriving DecidableEq, Repr

/-- The default of each OPEN parameter (R5; 93_implementation_defined.md part 2). -/
def Params.default : Params := { bufCap := none, xorFrom := .lengthByte, idDigitOrder := .lowFirst }

end Sys2Proof
end

