-- ==== Sys2Proof/Syntax.lean ====
section
/-! DEFINITION. The instructions: one constructor for each of the 23 rows of spec/opcode_table.json.
18 rows are FDR's operations (spec/30_encoding.md R96), four are the frame classes of the wire format (R94), one is the
acknowledgement frame (R88). An operation's operands stand in the constructor as R96 lists them. -/

namespace Sys2Proof

/-- The three formats of spec/opcode_table.json: what kind of bytes a transaction on the input port carries. -/
inductive Format where
  /-- `OP5`: an operation, its 5-bit operation select and its operand bytes (R96). -/
  | op5
  /-- `FRAME32`: an inbound frame, classified by its 32-bit header (R94). -/
  | frame32
  /-- `ACK80`: an acknowledgement frame, the 80-bit pattern of R88. -/
  | ack80
  deriving DecidableEq, Repr

/-- Which coordinate COORD.CONVERT converts (R199). -/
inductive Axis where
  /-- Latitude: letters N and S. -/
  | lat
  /-- Longitude: letters E and W. -/
  | lon
  deriving DecidableEq, Repr

/-- Exactly eight bytes, the operand of ID.DECODE: "the operand has a fixed size" (R189). -/
structure Bytes8 where
  b0 : Byte
  b1 : Byte
  b2 : Byte
  b3 : Byte
  b4 : Byte
  b5 : Byte
  b6 : Byte
  b7 : Byte
  deriving DecidableEq, Repr

/-- The instructions of FDR. -/
inductive Instr where
  /-- RSM.FEED chunk (R120). -/
  | rsmFeed (chunk : Bytes)
  /-- RSM.CLEAR (R131). -/
  | rsmClear
  /-- RSM.STATUS (R132). -/
  | rsmStatus
  /-- CRC.STEP reg, b (R150). -/
  | crcStep (reg : BitVec 16) (b : Byte)
  /-- CRC16 m (R151). -/
  | crc16 (m : Bytes)
  /-- XOR.SUM src, lo, hi: the spec's operands `s`, `from`, `to` (R170). -/
  | xorSum (src : Bytes) (lo hi : Nat)
  /-- XOR.VERIFY f (R171). -/
  | xorVerify (f : Bytes)
  /-- RD.U8 src, off (R185). -/
  | rdU8 (src : Bytes) (off : Nat)
  /-- RD.U16BE src, off (R186). -/
  | rdU16be (src : Bytes) (off : Nat)
  /-- RD.U32BE src, off (R187). -/
  | rdU32be (src : Bytes) (off : Nat)
  /-- RD.BYTES src, off, n (R188). -/
  | rdBytes (src : Bytes) (off n : Nat)
  /-- ID.DECODE b (R189). -/
  | idDecode (b : Bytes8)
  /-- FX.CLASSIFY f (R190). -/
  | fxClassify (f : Bytes)
  /-- FX.EXTRACT f (R191). -/
  | fxExtract (f : Bytes)
  /-- STATUS.DECODE st (R198). -/
  | statusDecode (st : Byte)
  /-- COORD.CONVERT raw, neg, axis (R199). -/
  | coordConvert (raw : BitVec 32) (neg : Bool) (axis : Axis)
  /-- ACK.BUILD t, [s0, s1]: the serial's high byte, then its low byte (R230). -/
  | ackBuild (t s0 s1 : Byte)
  /-- ACK.FROMFRAME f (R231). -/
  | ackFromframe (f : Bytes)
  /-- FRAME.LOCFAM: the inbound frame `78 78 lenByte 01 rest` (R94, R85). -/
  | frameLocfam (lenByte : Byte) (rest : Bytes)
  /-- FRAME.HEARTBEAT: the inbound frame `78 78 lenByte 04 rest` (R94, R86). -/
  | frameHeartbeat (lenByte : Byte) (rest : Bytes)
  /-- FRAME.UNKNOWN: the inbound frame `78 78 lenByte msgType rest`, any other message type (R94). -/
  | frameUnknown (lenByte msgType : Byte) (rest : Bytes)
  /-- FRAME.REJECTED: a sequence without the start marker, or shorter than 4 bytes (R94). -/
  | frameRejected (f : Bytes)
  /-- FRAME.ACK: the acknowledgement frame `78 78 05 t s0 s1 c 0d 0a`, `c` the 16 bits at offsets 6..7 (R88). -/
  | frameAck (t s0 s1 : Byte) (c : BitVec 16)
  deriving DecidableEq, Repr

end Sys2Proof
end

