-- ==== Sys2Proof/Machine/Layout.lean ====
section
/-! DEFINITION. The document's fixed constants (spec/00_scope.md R5), the offset map of a frame (spec/20_memory.md R58,
spec/30_encoding.md R85) and the byte order of multi-byte fields (R50, R51). -/

namespace Sys2Proof.Machine

/-- The first and second byte of `START_MARKER` (R5, R81). -/
def startByte : Byte := 0x78

/-- The first byte of `END_MARKER` (R5, R82). -/
def endByte0 : Byte := 0x0d

/-- The second byte of `END_MARKER` (R5, R82). -/
def endByte1 : Byte := 0x0a

/-- `END_SEARCH_FROM`: the lowest offset at which the end marker is looked for (R5, R82). -/
def endSearchFrom : Nat := 4

/-- `OFF_LEN` (R5). -/
def offLen : Nat := 2

/-- `OFF_TYPE` (R5). -/
def offType : Nat := 3

/-- Offset of the 8-byte device identifier (R58). -/
def offId : Nat := 4

/-- Offset of the sequence number, which is the serial of an acknowledgement (R58, R231). -/
def offSeq : Nat := 12

/-- Offset of the raw latitude (R58). -/
def offLat : Nat := 14

/-- Offset of the raw longitude (R58). -/
def offLon : Nat := 18

/-- Offset of the altitude (R58). -/
def offAlt : Nat := 22

/-- Offset of the raw speed (R58). -/
def offSpd : Nat := 24

/-- Offset of the course (R58). -/
def offCourse : Nat := 26

/-- Offset of the 6-byte timestamp (R58). -/
def offTs : Nat := 28

/-- Offset of the status byte (R58). -/
def offStatus : Nat := 34

/-- `TYPE_LOCFAM` (R5, R84). -/
def typeLocfam : Byte := 0x01

/-- `TYPE_HEARTBEAT` (R5, R84). -/
def typeHeartbeat : Byte := 0x04

/-- `GPS_READY_MIN_LEN` (R5, R193). -/
def gpsReadyMinLen : Nat := 28

/-- `COORD_DIVISOR`: raw coordinate units per degree (R5, R92). -/
def coordDivisor : Nat := 1800000

/-- `XOR_CS_BACK`: the distance of the checksum byte from the end of the frame (R5, R87). -/
def xorCsBack : Nat := 3

/-- `ACK_LEN_BYTE` (R5, R88). -/
def ackLenByte : Byte := 0x05

/-- `CRC_INIT` (R5, R28). -/
def crcInit : BitVec 16 := 0xFFFF

/-- `CRC_POLY_REFLECTED` (R5, R150). -/
def crcPoly : BitVec 16 := 0x8408

/-- Shortest sequence ACK.FROMFRAME accepts: both serial bytes inside it (R231). -/
def ackMinLen : Nat := 14

/-- `XOR_FROM` as an offset (R172). -/
def xorFromOffset (x : XorFrom) : Nat :=
  match x with
  | .lengthByte => 2
  | .messageType => 3
  | .body => 4

/-- The unsigned integer a byte sequence makes in big-endian order: the byte at the lowest offset is the most
significant (R50). -/
def beValue (bs : Bytes) : Nat := bs.foldl (fun acc b => (acc <<< 8) ||| b.toNat) 0

/-- The two bytes of a 16-bit value, high byte first (R51, R152). -/
def be16Bytes (w : BitVec 16) : Bytes := [w.extractLsb' 8 8, w.extractLsb' 0 8]

/-- The four bytes of a 32-bit value, most significant first (the operand `raw` of COORD.CONVERT, log entry 3). -/
def be32Bytes (w : BitVec 32) : Bytes :=
  [w.extractLsb' 24 8, w.extractLsb' 16 8, w.extractLsb' 8 8, w.extractLsb' 0 8]

/-- The eight bytes of the operand of ID.DECODE, first byte first (R189). -/
def bytes8List (b : Bytes8) : Bytes := [b.b0, b.b1, b.b2, b.b3, b.b4, b.b5, b.b6, b.b7]

/-- "the first two bytes are `78 78`" (R81, R190). -/
def hasStart (f : Bytes) : Bool :=
  match f with
  | b0 :: b1 :: _ => b0 == startByte && b1 == startByte
  | _ => false

end Sys2Proof.Machine
end

