-- ==== Sys2Proof/WellFormed.lean ====
section
/-! DEFINITION. Which terms of `Instr` stand for an instruction the spec has.
Only two rows of the table constrain an operand beyond its type: FRAME.UNKNOWN ("any value but 01 and 04 (earlier rows
match first)") and FRAME.REJECTED ("any sequence whose first two bytes are not 78 78, or that is shorter than 4 bytes"),
both of spec/30_encoding.md R94. Every other operand is free: chunks and sequences have any length (R66, D31), offsets
are natural numbers (R29), and a fixed-size operand has its size in its type. -/

namespace Sys2Proof

/-- FRAME.UNKNOWN's message type is neither of the two codes that earlier rows match (R94). -/
def unknownTypeOk (msgType : Byte) : Bool := msgType != 0x01 && msgType != 0x04

/-- FRAME.REJECTED's sequence is one no earlier row matches (R94). -/
def rejectedOk (f : Bytes) : Bool :=
  match f with
  | b0 :: b1 :: _ :: _ :: _ => !(b0 == 0x78 && b1 == 0x78)
  | _ => true

/-- The well-formed instructions. -/
def Instr.wf (i : Instr) : Bool :=
  match i with
  | .rsmFeed _ => true
  | .rsmClear => true
  | .rsmStatus => true
  | .crcStep _ _ => true
  | .crc16 _ => true
  | .xorSum _ _ _ => true
  | .xorVerify _ => true
  | .rdU8 _ _ => true
  | .rdU16be _ _ => true
  | .rdU32be _ _ => true
  | .rdBytes _ _ _ => true
  | .idDecode _ => true
  | .fxClassify _ => true
  | .fxExtract _ => true
  | .statusDecode _ => true
  | .coordConvert _ _ _ => true
  | .ackBuild _ _ _ => true
  | .ackFromframe _ => true
  | .frameLocfam _ _ => true
  | .frameHeartbeat _ _ => true
  | .frameUnknown _ msgType _ => unknownTypeOk msgType
  | .frameRejected f => rejectedOk f
  | .frameAck _ _ _ _ => true

end Sys2Proof
end

