-- ==== Sys2Proof/Decode.lean ====
section
/-! DEFINITION. The decoder and the encoder of FDR's three encodings: the 5-bit operation select with its operand bytes
(spec/30_encoding.md R96, format OP5), the inbound frame with its 32-bit header (R94, format FRAME32) and the 80-bit
acknowledgement frame (R88, format ACK80). The spec fixes the operation numbers, the header masks and the
acknowledgement pattern; how several operands of one operation are laid out in bytes is the model's (log entry 3). -/

namespace Sys2Proof

/-- Why the decoder reads no instruction. -/
inductive Reject where
  /-- An OP5 transaction without a byte: there is no operation select to read. -/
  | noOperation
  /-- An `op` value outside the table of R96: `ReservedOp`. -/
  | reservedOp
  /-- The operand bytes are not operands of the operation (log entry 3). -/
  | badOperands
  /-- An ACK80 transaction whose bytes do not match the 80-bit pattern of R88. -/
  | notAckPattern
  deriving DecidableEq, Repr

/-- What the decoder answers. -/
inductive Decoded where
  | ok (i : Instr)
  | rejected (r : Reject)
  deriving DecidableEq, Repr

/-- The 18 operations of R96. -/
inductive OpName where
  | rsmFeed | rsmClear | rsmStatus
  | crcStep | crc16
  | xorSum | xorVerify
  | rdU8 | rdU16be | rdU32be | rdBytes
  | idDecode | fxClassify | fxExtract | statusDecode | coordConvert
  | ackBuild | ackFromframe
  deriving DecidableEq, Repr

/-- The operation numbers of R96. -/
def opTable : List (BitVec 5 × OpName) :=
  [(0x00, .rsmFeed), (0x01, .rsmClear), (0x02, .rsmStatus),
   (0x04, .crcStep), (0x05, .crc16),
   (0x08, .xorSum), (0x09, .xorVerify),
   (0x0C, .rdU8), (0x0D, .rdU16be), (0x0E, .rdU32be), (0x0F, .rdBytes),
   (0x10, .idDecode), (0x11, .fxClassify), (0x12, .fxExtract), (0x13, .statusDecode), (0x14, .coordConvert),
   (0x18, .ackBuild), (0x19, .ackFromframe)]

/-- The operation select of a command's first byte: its low five bits, as the table's mask 0x1F says (log entry 4). -/
def opSelect (b : Byte) : BitVec 5 := b.setWidth 5

/-- The operation a select value names, none for a reserved value (R96). -/
def opOfSelect (op : BitVec 5) : Option OpName := opTable.lookup op

/-- The select value of an operation (R96). -/
def selectOfOp (o : OpName) : BitVec 5 :=
  match o with
  | .rsmFeed => 0x00
  | .rsmClear => 0x01
  | .rsmStatus => 0x02
  | .crcStep => 0x04
  | .crc16 => 0x05
  | .xorSum => 0x08
  | .xorVerify => 0x09
  | .rdU8 => 0x0C
  | .rdU16be => 0x0D
  | .rdU32be => 0x0E
  | .rdBytes => 0x0F
  | .idDecode => 0x10
  | .fxClassify => 0x11
  | .fxExtract => 0x12
  | .statusDecode => 0x13
  | .coordConvert => 0x14
  | .ackBuild => 0x18
  | .ackFromframe => 0x19

/-- The operation byte of an operation: the select value in bits 4..0, zeros above. -/
def opByte (o : OpName) : Byte := (selectOfOp o).setWidth 8

/-! Natural-number operands (`off`, `n`, `from`, `to`), seven bits a byte, least significant group first, bit 7 set in
every byte but the last: no offset is ever reduced modulo anything (R29), so the layout has no largest value
(log entry 3). -/

/-- The bytes of a natural number; `fuel` bounds the number of bytes. -/
def encodeNatAux (fuel n : Nat) : Bytes :=
  match fuel with
  | 0 => [BitVec.ofNat 8 n]
  | k + 1 => if n < 128 then [BitVec.ofNat 8 n] else BitVec.ofNat 8 (128 + n % 128) :: encodeNatAux k (n / 128)

/-- The bytes of a natural-number operand. -/
def encodeNat (n : Nat) : Bytes := encodeNatAux n n

/-- A natural-number operand and the bytes after it. -/
def decodeNat (bs : Bytes) : Option (Nat × Bytes) :=
  match bs with
  | [] => none
  | b :: r =>
    if b.toNat < 128 then some (b.toNat, r)
    else (decodeNat r).map (fun p => (b.toNat - 128 + 128 * p.1, p.2))

/-- A one-bit operand: the byte 0 or 1. -/
def decodeBit (b : Byte) : Option Bool := if b = 0 then some false else if b = 1 then some true else none

/-- A one-bit operand as a byte. -/
def encodeBit (v : Bool) : Byte := if v then 1 else 0

/-- The `axis` operand of COORD.CONVERT: 0 is LAT, 1 is LON. -/
def decodeAxis (b : Byte) : Option Axis := if b = 0 then some .lat else if b = 1 then some .lon else none

/-- The `axis` operand as a byte. -/
def encodeAxis (a : Axis) : Byte :=
  match a with
  | .lat => 0
  | .lon => 1

/-- The operands of an operation from the bytes after its operation byte. -/
def decodeOperands (o : OpName) (bs : Bytes) : Option Instr :=
  match o with
  | .rsmFeed => some (.rsmFeed bs)
  | .rsmClear => if bs = [] then some .rsmClear else none
  | .rsmStatus => if bs = [] then some .rsmStatus else none
  | .crcStep =>
    match bs with
    | [h, l, b] => some (.crcStep (BitVec.ofNat 16 (Machine.beValue [h, l])) b)
    | _ => none
  | .crc16 => some (.crc16 bs)
  | .xorSum => (decodeNat bs).bind (fun p => (decodeNat p.2).map (fun q => .xorSum q.2 p.1 q.1))
  | .xorVerify => some (.xorVerify bs)
  | .rdU8 => (decodeNat bs).map (fun p => .rdU8 p.2 p.1)
  | .rdU16be => (decodeNat bs).map (fun p => .rdU16be p.2 p.1)
  | .rdU32be => (decodeNat bs).map (fun p => .rdU32be p.2 p.1)
  | .rdBytes => (decodeNat bs).bind (fun p => (decodeNat p.2).map (fun q => .rdBytes q.2 p.1 q.1))
  | .idDecode =>
    match bs with
    | [b0, b1, b2, b3, b4, b5, b6, b7] => some (.idDecode ⟨b0, b1, b2, b3, b4, b5, b6, b7⟩)
    | _ => none
  | .fxClassify => some (.fxClassify bs)
  | .fxExtract => some (.fxExtract bs)
  | .statusDecode =>
    match bs with
    | [st] => some (.statusDecode st)
    | _ => none
  | .coordConvert =>
    match bs with
    | [r0, r1, r2, r3, n, a] =>
      (decodeBit n).bind (fun neg => (decodeAxis a).map (fun axis =>
        .coordConvert (BitVec.ofNat 32 (Machine.beValue [r0, r1, r2, r3])) neg axis))
    | _ => none
  | .ackBuild =>
    match bs with
    | [t, s0, s1] => some (.ackBuild t s0 s1)
    | _ => none
  | .ackFromframe => some (.ackFromframe bs)

/-- Decoding an OP5 transaction: the operation number, then the operand bytes (R96; 95_test_vectors.md section 3). -/
def decodeOp (bs : Bytes) : Decoded :=
  match bs with
  | [] => .rejected .noOperation
  | b :: operands =>
    match opOfSelect (opSelect b) with
    | none => .rejected .reservedOp
    | some o =>
      match decodeOperands o operands with
      | some i => .ok i
      | none => .rejected .badOperands

/-- The four frame classes (R94), with the class codes of R33. -/
inductive Cls where
  | rejected
  | locfam
  | heartbeat
  | unknown
  deriving DecidableEq, Repr

/-- One row of the table of R94. -/
structure FrameRow where
  mask : BitVec 32
  pattern : BitVec 32
  cls : Cls
  deriving DecidableEq, Repr

/-- The table of R94; the class of a header is the first row that matches, from the top. -/
def frameRows : List FrameRow :=
  [⟨0xFFFF00FF, 0x78780001, .locfam⟩,
   ⟨0xFFFF00FF, 0x78780004, .heartbeat⟩,
   ⟨0xFFFF0000, 0x78780000, .unknown⟩,
   ⟨0x00000000, 0x00000000, .rejected⟩]

/-- The header `H = {f[0], f[1], f[2], f[3]}`, `f[0]` in bits 31..24 (R94). -/
def frameHeader (b0 b1 b2 b3 : Byte) : BitVec 32 := b0 ++ b1 ++ b2 ++ b3

/-- The class of a header: the first row that matches (R94). -/
def classOfHeader (h : BitVec 32) : Cls :=
  match frameRows.find? (fun r => h &&& r.mask == r.pattern) with
  | some r => r.cls
  | none => .rejected

/-- Decoding a FRAME32 transaction: every byte sequence is of one of the four classes; "A sequence shorter than 4 bytes
is REJECTED" (R94). -/
def decodeFrame (f : Bytes) : Instr :=
  match f with
  | b0 :: b1 :: b2 :: b3 :: rest =>
    match classOfHeader (frameHeader b0 b1 b2 b3) with
    | .locfam => .frameLocfam b2 rest
    | .heartbeat => .frameHeartbeat b2 rest
    | .unknown => .frameUnknown b2 b3 rest
    | .rejected => .frameRejected f
  | _ => .frameRejected f

/-- Decoding an ACK80 transaction: the ten bytes of the pattern of R88. -/
def decodeAck (bs : Bytes) : Decoded :=
  match bs with
  | [m0, m1, l, t, s0, s1, c1, c0, e0, e1] =>
    if m0 = 0x78 ∧ m1 = 0x78 ∧ l = 0x05 ∧ e0 = 0x0d ∧ e1 = 0x0a then
      .ok (.frameAck t s0 s1 (BitVec.ofNat 16 (Machine.beValue [c1, c0])))
    else .rejected .notAckPattern
  | _ => .rejected .notAckPattern

/-- The decoder: total on any bytes of any format. -/
def decode (fmt : Format) (bs : Bytes) : Decoded :=
  match fmt with
  | .op5 => decodeOp bs
  | .frame32 => .ok (decodeFrame bs)
  | .ack80 => decodeAck bs

/-- The format of an instruction's row in spec/opcode_table.json. -/
def Instr.format (i : Instr) : Format :=
  match i with
  | .rsmFeed _ => .op5
  | .rsmClear => .op5
  | .rsmStatus => .op5
  | .crcStep _ _ => .op5
  | .crc16 _ => .op5
  | .xorSum _ _ _ => .op5
  | .xorVerify _ => .op5
  | .rdU8 _ _ => .op5
  | .rdU16be _ _ => .op5
  | .rdU32be _ _ => .op5
  | .rdBytes _ _ _ => .op5
  | .idDecode _ => .op5
  | .fxClassify _ => .op5
  | .fxExtract _ => .op5
  | .statusDecode _ => .op5
  | .coordConvert _ _ _ => .op5
  | .ackBuild _ _ _ => .op5
  | .ackFromframe _ => .op5
  | .frameLocfam _ _ => .frame32
  | .frameHeartbeat _ _ => .frame32
  | .frameUnknown _ _ _ => .frame32
  | .frameRejected _ => .frame32
  | .frameAck _ _ _ _ => .ack80

/-- The encoder: the bytes of a well-formed instruction. -/
def Instr.bytes (i : Instr) : Bytes :=
  match i with
  | .rsmFeed chunk => opByte .rsmFeed :: chunk
  | .rsmClear => [opByte .rsmClear]
  | .rsmStatus => [opByte .rsmStatus]
  | .crcStep reg b => opByte .crcStep :: (Machine.be16Bytes reg ++ [b])
  | .crc16 m => opByte .crc16 :: m
  | .xorSum src lo hi => opByte .xorSum :: (encodeNat lo ++ (encodeNat hi ++ src))
  | .xorVerify f => opByte .xorVerify :: f
  | .rdU8 src off => opByte .rdU8 :: (encodeNat off ++ src)
  | .rdU16be src off => opByte .rdU16be :: (encodeNat off ++ src)
  | .rdU32be src off => opByte .rdU32be :: (encodeNat off ++ src)
  | .rdBytes src off n => opByte .rdBytes :: (encodeNat off ++ (encodeNat n ++ src))
  | .idDecode b => opByte .idDecode :: Machine.bytes8List b
  | .fxClassify f => opByte .fxClassify :: f
  | .fxExtract f => opByte .fxExtract :: f
  | .statusDecode st => [opByte .statusDecode, st]
  | .coordConvert raw neg axis => opByte .coordConvert :: (Machine.be32Bytes raw ++ [encodeBit neg, encodeAxis axis])
  | .ackBuild t s0 s1 => [opByte .ackBuild, t, s0, s1]
  | .ackFromframe f => opByte .ackFromframe :: f
  | .frameLocfam lenByte rest => 0x78 :: 0x78 :: lenByte :: 0x01 :: rest
  | .frameHeartbeat lenByte rest => 0x78 :: 0x78 :: lenByte :: 0x04 :: rest
  | .frameUnknown lenByte msgType rest => 0x78 :: 0x78 :: lenByte :: msgType :: rest
  | .frameRejected f => f
  | .frameAck t s0 s1 c => [0x78, 0x78, 0x05, t, s0, s1] ++ Machine.be16Bytes c ++ [0x0d, 0x0a]

/-- The encoder with the format: what a host puts on the input port to issue the instruction. -/
def encode (i : Instr) : Format × Bytes := (i.format, i.bytes)

/-! The words of spec/opcode_table.json. A row's number has bit 0 as its least significant bit; FRAME32 and ACK80 number
their bits with `f[0]` at the top (R94, R88), so a word is laid out most significant byte first. Operand bytes above
the row's bits are zero; how many of them are laid out is `zeroOperands` (log entry 5). -/

/-- `k` bytes of `w`, most significant first. -/
def wordBytes (k w : Nat) : Bytes :=
  match k with
  | 0 => []
  | j + 1 => BitVec.ofNat 8 (w >>> (8 * j)) :: wordBytes j w

/-- The number of zero operand bytes laid out after an operation byte of the table: a fixed-size operand's own size, 16
bytes where an operand is a byte sequence (with its natural-number operands zero). -/
def zeroOperands (b : Byte) : Nat :=
  match opOfSelect (opSelect b) with
  | none => 0
  | some .rsmClear => 0
  | some .rsmStatus => 0
  | some .crcStep => 3
  | some .idDecode => 8
  | some .statusDecode => 1
  | some .coordConvert => 6
  | some .ackBuild => 3
  | some _ => 16

/-- The length to which the zero bytes extend a frame's header: the shortest frame in which no field overlaps the
trailer (R98). -/
def tableFrameLen : Nat := 38

/-- The format and the bytes of a table row whose bits are `w`. -/
def tableTransaction (nbits w : Nat) : Format × Bytes :=
  if nbits ≤ 8 then
    (.op5, BitVec.ofNat 8 w :: List.replicate (zeroOperands (BitVec.ofNat 8 w)) 0)
  else if nbits ≤ 32 then
    (.frame32, wordBytes 4 w ++ List.replicate (tableFrameLen - 4) 0)
  else
    (.ack80, wordBytes 10 w)

/-- What the decoder reads from a table row's word. -/
def decodeTableWord (nbits w : Nat) : Option Instr :=
  match decode (tableTransaction nbits w).1 (tableTransaction nbits w).2 with
  | .ok i => some i
  | .rejected _ => none

end Sys2Proof
end

