-- ==== Sys2Proof/Machine/State.lean ====
section
/-! DEFINITION. The state of one FDR instance, the values its operations deliver, and the ways a step can stop.
The spec's persistent state is `buf` and `ovf` (spec/10_state.md R20); the parameters of R5 stand beside them, fixed;
the input port and the output port of 92_eei_decisions.md D1 are the model's own lists (log entries 1 and 2). -/

namespace Sys2Proof.Machine

/-- `rsm_state`: EMPTY or ACCUMULATING, a function of `buf` and not stored (R22). -/
inductive RsmState where
  | empty
  | accumulating
  deriving DecidableEq, Repr

/-- The status word RSM.STATUS returns (R27, R132). -/
structure StatusWord where
  rsmState : RsmState
  bufLen : Nat
  ovf : Bool
  deriving DecidableEq, Repr

/-- The conditions of the taxonomy (spec/60_exceptions.md R240), in the order of their codes 0 to 14. -/
inductive ErrCode where
  | noError
  | outOfRange
  | invalidStartMarker
  | checksumMismatch
  | unknownMessageType
  | gpsNotReady
  | frameIncomplete
  | malformedHex
  | bufferOverflow
  | concurrentFeed
  | badRange
  | notAFrame
  | ackShortFrame
  | reservedOp
  | feedAfterOverflow
  deriving DecidableEq, Repr

/-- The check bundle CHK (R34). -/
structure Chk where
  /-- The checksum byte carried in the frame. -/
  expected : Byte
  /-- The XOR computed over the span. -/
  actual : Byte
  valid : Bool
  deriving DecidableEq, Repr

/-- The result of ID.DECODE: 16 digits of 4 bits, the first digit first, and `id_nondecimal` (R189). -/
structure IdDigits where
  digits : List (BitVec 4)
  nondecimal : Bool
  deriving DecidableEq, Repr

/-- The result of STATUS.DECODE (R198). -/
structure StatusBits where
  latSouth : Bool
  lonWest : Bool
  unfixed : Bool
  sats : BitVec 4
  deriving DecidableEq, Repr

/-- A hemisphere letter: for a latitude 0 is N and 1 is S, for a longitude 0 is E and 1 is W (R199). -/
inductive Letter where
  | n
  | s
  | e
  | w
  deriving DecidableEq, Repr

/-- The result of COORD.CONVERT (R199); `deg` is the exact rational, not rounded. -/
structure Coord where
  sign : Bool
  mag : BitVec 32
  letter : Letter
  deg : Rat
  udeg : BitVec 32
  deriving DecidableEq, Repr

/-- The fields of group `V_HDR` of REC (R33). -/
structure HdrFields where
  lenByte : Byte
  msgType : Byte
  deriving DecidableEq, Repr

/-- The fields of group `V_ID` of REC (R33): the eight bytes in frame order, their digits and the flag. -/
structure IdFields where
  id : Bytes
  decoded : IdDigits
  deriving DecidableEq, Repr

/-- The fields of group `V_TS` of REC (R33, R201). -/
structure TsFields where
  yy : Byte
  mo : Byte
  dd : Byte
  hh : Byte
  mi : Byte
  ss : Byte
  year : BitVec 12
  deriving DecidableEq, Repr

/-- The fields of group `V_ST` of REC (R33): the status byte, its bits, and the converted coordinates, which need it. -/
structure StFields where
  status : Byte
  bits : StatusBits
  latUdeg : BitVec 32
  lonUdeg : BitVec 32
  latLetter : Letter
  lonLetter : Letter
  deriving DecidableEq, Repr

/-- The record bundle REC, the result of FX.EXTRACT (R33). A group whose `vmask` bit is 0 has no value: it is `none`. -/
structure Rec where
  cls : Cls
  err : ErrCode
  flen : Nat
  gpsReady : Bool
  hdr : Option HdrFields
  ident : Option IdFields
  seq : Option (BitVec 16)
  latRaw : Option (BitVec 32)
  lonRaw : Option (BitVec 32)
  alt : Option (BitVec 16)
  spdRaw : Option (BitVec 16)
  course : Option (BitVec 16)
  ts : Option TsFields
  st : Option StFields
  deriving DecidableEq, Repr

/-- What an operation delivers on the output port (R9, R24). -/
inductive Result where
  /-- RSM.FEED: the frames of this feed, in stream order, possibly none (R120). -/
  | frames (fs : List Frame)
  /-- RSM.FEED that overflowed a finite buffer: the fault of R65. -/
  | overflow
  /-- RSM.STATUS (R132). -/
  | status (w : StatusWord)
  /-- CRC.STEP: the new register (R150). -/
  | crcReg (reg : BitVec 16)
  /-- CRC16: the CRC and its two bytes, high byte first (R151, R152). -/
  | crc (crc : BitVec 16) (bytes : Bytes)
  /-- XOR.SUM (R170). -/
  | xorByte (acc : Byte)
  /-- XOR.VERIFY (R171). -/
  | chk (c : Chk)
  /-- RD.U8 (R185). -/
  | u8 (v : BitVec 8)
  /-- RD.U16BE (R186). -/
  | u16 (v : BitVec 16)
  /-- RD.U32BE (R187). -/
  | u32 (v : BitVec 32)
  /-- RD.BYTES (R188). -/
  | bytes (bs : Bytes)
  /-- A reader's error in place of a value: `OutOfRangeError`, which carries nothing (R241). -/
  | outOfRange
  /-- ID.DECODE (R189). -/
  | digits (d : IdDigits)
  /-- FX.CLASSIFY (R190). -/
  | cls (c : Cls)
  /-- FX.EXTRACT, and the class path of an inbound frame (R191). -/
  | record (r : Rec)
  /-- STATUS.DECODE (R198). -/
  | statusBits (b : StatusBits)
  /-- COORD.CONVERT (R199). -/
  | coord (c : Coord)
  /-- ACK.BUILD, ACK.FROMFRAME and FRAME.ACK: an acknowledgement frame (R88, R230). -/
  | ack (bs : Bytes)
  deriving DecidableEq, Repr

/-- Which operation of U1, if any, is still in progress on this instance when another is issued (R61, R120). -/
inductive InProgress where
  /-- None: the operation begins after every earlier one has returned, as the host must see to (R272). -/
  | idle
  /-- An RSM.FEED has not returned yet. -/
  | feed
  /-- An RSM.CLEAR has not returned yet. -/
  | clear
  deriving DecidableEq, Repr

/-- One transaction on the input port: an operation or a frame the host issues. -/
structure Command where
  fmt : Format
  bytes : Bytes
  /-- Whether the host issues it while an earlier operation of U1 is still in progress. -/
  overlap : InProgress
  deriving DecidableEq, Repr

/-- The state of one FDR instance. -/
structure State where
  /-- The parameters the instance was built with (R5); no operation writes them (R27). -/
  params : Params
  /-- `buf`, the FrameBuffer (R21). -/
  buf : Bytes
  /-- `ovf`, the sticky overflow flag (R23). -/
  ovf : Bool
  /-- Which operation of U1 is in progress while this one is performed (R61); `idle` between operations. -/
  busy : InProgress
  /-- The input port: what the host has issued and FDR has not performed, next first (R60; log entry 1). -/
  inq : List Command
  /-- The output port: every result delivered so far, oldest first (R60, R286; log entry 2). -/
  out : List Result
  deriving DecidableEq, Repr

/-- A new instance for a connection, built with the parameters `p` (R32, R270). -/
def State.create (p : Params) : State :=
  { params := p, buf := [], ovf := false, busy := .idle, inq := [], out := [] }

/-- The machine right after reset: `buf = []`, `ovf = 0` (R32, R270), the parameters at their defaults (R5). -/
def State.reset : State := State.create Params.default

/-- How a step can end in a fault: in no way. The spec's only fault is `BufferOverflow` (R249); R65 gives its effect on
the state, and the machine goes on afterwards (95_test_vectors.md P5), so the model takes it as a next state
(`State.takeOverflow`, log entry 6). -/
inductive Fault where
  deriving DecidableEq, Repr

/-- Why a step is refused: "the operation has no result and changes no state" (R248). Each is safe: the spec gives
nothing there, and nothing can be proved about it. -/
inductive Refusal where
  /-- Raised by an arm of `exec` for an instruction without a meaning; no arm of this model raises it. Safe. -/
  | notModelled (mnemonic : String)
  /-- `ConcurrentFeed`, raised by RSM.FEED and RSM.CLEAR issued while an earlier feed has not returned (R61). Safe. -/
  | concurrentFeed
  /-- `FeedAfterOverflow`, raised by RSM.FEED while `ovf = 1` (R23, R65). Safe. -/
  | feedAfterOverflow
  /-- `BadRange`, raised by XOR.SUM on a range outside its sequence (R170). Safe. -/
  | badRange
  /-- `NotAFrame`, raised by XOR.VERIFY on fewer than 3 bytes (R171). Safe. -/
  | notAFrame
  /-- `AckShortFrame`, raised by ACK.FROMFRAME on fewer than 14 bytes (R231). Safe. -/
  | ackShortFrame
  /-- `ReservedOp`, raised by the step on an operation number outside R96. Safe. -/
  | reservedOp
  /-- Raised by the step on an OP5 transaction without a byte (the model's own, log entry 3). Safe. -/
  | noOperation
  /-- Raised by the step on operand bytes that are no operands of the operation (the model's own, log entry 3). Safe. -/
  | badOperands
  /-- Raised by the step on an ACK80 transaction that does not match the pattern of R88 (log entry 3). Safe. -/
  | notAckPattern
  deriving DecidableEq, Repr

/-- The outcome of an instruction. -/
abbrev Outcome := Host.Outcome State Fault Refusal

end Sys2Proof.Machine
end

