-- ==== Sys2Proof/Machine/Flags.lean ====
section
/-! DEFINITION. The status flags (spec/10_state.md R26): each a function of the state or of one delivered bundle, none of
them stored but `ovf`. -/

namespace Sys2Proof.Machine

/-- `rsm_state`: EMPTY exactly when `buf` is empty (R22). -/
def rsmState (buf : Bytes) : RsmState := if buf = [] then .empty else .accumulating

/-- `rsm_state` as a bit: EMPTY = 0, ACCUMULATING = 1 (R26). -/
def RsmState.code (x : RsmState) : Bool :=
  match x with
  | .empty => false
  | .accumulating => true

/-- The status word of an instance (R27, R132). -/
def statusWord (s : State) : StatusWord := { rsmState := rsmState s.buf, bufLen := s.buf.length, ovf := s.ovf }

/-- The code of a condition (R240). -/
def ErrCode.code (e : ErrCode) : Nat :=
  match e with
  | .noError => 0
  | .outOfRange => 1
  | .invalidStartMarker => 2
  | .checksumMismatch => 3
  | .unknownMessageType => 4
  | .gpsNotReady => 5
  | .frameIncomplete => 6
  | .malformedHex => 7
  | .bufferOverflow => 8
  | .concurrentFeed => 9
  | .badRange => 10
  | .notAFrame => 11
  | .ackShortFrame => 12
  | .reservedOp => 13
  | .feedAfterOverflow => 14

/-- The condition a refusal stands for in R240; the model's own refusals have none. -/
def Refusal.condition (r : Refusal) : Option ErrCode :=
  match r with
  | .concurrentFeed => some .concurrentFeed
  | .feedAfterOverflow => some .feedAfterOverflow
  | .badRange => some .badRange
  | .notAFrame => some .notAFrame
  | .ackShortFrame => some .ackShortFrame
  | .reservedOp => some .reservedOp
  | _ => none

/-- The class codes of R33. -/
def clsCode (c : Cls) : BitVec 2 :=
  match c with
  | .rejected => 0
  | .locfam => 1
  | .heartbeat => 2
  | .unknown => 3

/-- The letter bit: N and E are 0, S and W are 1 (R33, R199). -/
def Letter.code (l : Letter) : Bool :=
  match l with
  | .n => false
  | .e => false
  | .s => true
  | .w => true

/-- `id_nondecimal`: some digit value is 10 to 15 (R189). -/
def nondecimal (ds : List (BitVec 4)) : Bool := ds.any (fun d => 9 < d.toNat)

/-- The ten groups of `vmask`, in the order of R33. -/
inductive Group where
  | hdr | id | seq | lat | lon | alt | spd | crs | ts | st
  deriving DecidableEq, Repr

/-- The ten groups in order (R33). -/
def Group.all : List Group := [.hdr, .id, .seq, .lat, .lon, .alt, .spd, .crs, .ts, .st]

/-- The bit of one group of `vmask`: whether the group's fields hold extracted values (R33). -/
def Rec.vbit (r : Rec) (g : Group) : Bool :=
  match g with
  | .hdr => r.hdr.isSome
  | .id => r.ident.isSome
  | .seq => r.seq.isSome
  | .lat => r.latRaw.isSome
  | .lon => r.lonRaw.isSome
  | .alt => r.alt.isSome
  | .spd => r.spdRaw.isSome
  | .crs => r.course.isSome
  | .ts => r.ts.isSome
  | .st => r.st.isSome

/-- `vmask` as the list of the groups whose bit is 1, in the order of R33. -/
def Rec.vmask (r : Rec) : List Group := Group.all.filter r.vbit

/-- The condition REC reports: its error, else `UnknownMessageType` for class UNKNOWN (R244), else `GpsNotReady` for a
location-family frame without a fix (R245). -/
def Rec.condition (r : Rec) : ErrCode :=
  if r.err = .noError then
    match r.cls with
    | .unknown => .unknownMessageType
    | .locfam => if r.gpsReady then .noError else .gpsNotReady
    | .heartbeat => .noError
    | .rejected => .noError
  else r.err

/-- The condition CHK reports (R243). -/
def Chk.condition (c : Chk) : ErrCode := if c.valid then .noError else .checksumMismatch

/-- `FrameIncomplete`, visible only as `rsm_state = ACCUMULATING` (R246). -/
def frameIncomplete (s : State) : Bool := (rsmState s.buf).code

/-- The condition of the taxonomy that a delivered result reports (R240). -/
def Result.condition (r : Result) : ErrCode :=
  match r with
  | .overflow => .bufferOverflow
  | .outOfRange => .outOfRange
  | .chk c => c.condition
  | .record rc => rc.condition
  | .cls .unknown => .unknownMessageType
  | .cls .rejected => .noError
  | .cls .locfam => .noError
  | .cls .heartbeat => .noError
  | .frames _ => .noError
  | .status _ => .noError
  | .crcReg _ => .noError
  | .crc _ _ => .noError
  | .xorByte _ => .noError
  | .u8 _ => .noError
  | .u16 _ => .noError
  | .u32 _ => .noError
  | .bytes _ => .noError
  | .digits _ => .noError
  | .statusBits _ => .noError
  | .coord _ => .noError
  | .ack _ => .noError

end Sys2Proof.Machine
end

