-- ==== Sys2Proof/Machine/Operands.lean ====
section
/-! DEFINITION. Every operand form: a bounded read of a byte sequence at an offset (`MemRead`, spec/00_scope.md R8,
spec/20_memory.md R50, R55) and the four readers of spec/43_field_extractor.md section 1. `none` is `OutOfRangeError`. -/

namespace Sys2Proof.Machine

/-- "A read of `n` bytes at offset `off` of a byte sequence `f` is in range exactly when `off + n <= len(f)`" (R55). -/
def inRange (f : Bytes) (off n : Nat) : Bool := off + n ≤ f.length

/-- The subsequence `f[off : off+n)`, or `OutOfRangeError` (R55, R188): all or nothing. -/
def slice (f : Bytes) (off n : Nat) : Option Bytes := if inRange f off n then some ((f.drop off).take n) else none

/-- `MemRead(f, off, n)`: the big-endian value of the `n` bytes, or `OutOfRangeError` (R8, R50). -/
def memRead (f : Bytes) (off n : Nat) : Option Nat := (slice f off n).map beValue

/-- RD.U8's value (R185). -/
def readU8 (f : Bytes) (off : Nat) : Option (BitVec 8) := (memRead f off 1).map (BitVec.ofNat 8)

/-- RD.U16BE's value (R186). -/
def readU16be (f : Bytes) (off : Nat) : Option (BitVec 16) := (memRead f off 2).map (BitVec.ofNat 16)

/-- RD.U32BE's value (R187). -/
def readU32be (f : Bytes) (off : Nat) : Option (BitVec 32) := (memRead f off 4).map (BitVec.ofNat 32)

/-- The byte at an offset inside the sequence; used only where the offset is known to be inside. -/
def byteAt (f : Bytes) (off : Nat) : Byte := f.getD off 0

end Sys2Proof.Machine
end

