-- ==== Sys2Proof/Machine/Ops.lean ====
section
/-! DEFINITION. The named operations over the state that the meanings share: the marker search and the scan of the
FrameBuffer (spec/40_reassembler.md R121), the invariant of `buf` (spec/10_state.md R21), delivery on the output port,
taking the one fault the spec has and the return from it, and the input port. -/

namespace Sys2Proof.Machine

/-! The marker search. -/

/-- The least offset at which the bytes `b0 b1` stand (R7). -/
def findPair (b0 b1 : Byte) (bs : Bytes) : Option Nat :=
  match bs with
  | [] => none
  | x :: rest =>
    if x = b0 ∧ rest.head? = some b1 then some 0 else (findPair b0 b1 rest).map (· + 1)

/-- `find2(s, b0, b1, from)`: the least offset at or after `start` at which the pair stands, or NONE (R7). -/
def find2 (bs : Bytes) (b0 b1 : Byte) (start : Nat) : Option Nat :=
  (findPair b0 b1 (bs.drop start)).map (· + start)

/-- Step B of R121: the first start marker. -/
def findStart (buf : Bytes) : Option Nat := find2 buf startByte startByte 0

/-- Step E of R121: the first end marker at or after offset 4. -/
def findEnd (buf : Bytes) : Option Nat := find2 buf endByte0 endByte1 endSearchFrom

/-! The FrameBuffer. -/

/-- The invariant of `buf` between operations: empty, or a start marker at offset 0 and no end marker at or after offset
4 (R21). It is the canonical form of this machine's only memory. -/
def Memory.wf (buf : Bytes) : Bool := buf == [] || (hasStart buf && (findEnd buf).isNone)

/-- Step A of R121: the chunk is appended. -/
def Memory.append (buf chunk : Bytes) : Bytes := buf ++ chunk

/-- The loop of R121 from step B on: the frames emitted, in order, and the bytes left. `fuel` bounds the passes. -/
def scanAux (fuel : Nat) (buf : Bytes) : List Frame × Bytes :=
  match fuel with
  | 0 => ([], buf)
  | k + 1 =>
    match findStart buf with
    | none => ([], [])
    | some s =>
      match findEnd (buf.drop s) with
      | none => ([], buf.drop s)
      | some e =>
        ((buf.drop s).take (e + 2) :: (scanAux k ((buf.drop s).drop (e + 2))).1,
         (scanAux k ((buf.drop s).drop (e + 2))).2)

/-- The scan of a buffer (R121): a pass that goes on removes at least 6 bytes (R127), so the length bounds the passes. -/
def scan (buf : Bytes) : List Frame × Bytes := scanAux (buf.length + 1) buf

/-- Whether the chunk fits: the test is on the sum before appending (R65). -/
def fits (p : Params) (buf chunk : Bytes) : Bool :=
  match p.bufCap with
  | none => true
  | some cap => buf.length + chunk.length ≤ cap

/-! The state. -/

/-- Delivers one result on the output port (R24). -/
def State.deliver (s : State) (r : Result) : State := { s with out := s.out ++ [r] }

/-- Replaces the FrameBuffer. -/
def State.setBuf (s : State) (buf : Bytes) : State := { s with buf := buf }

/-- Taking `BufferOverflow`: `ovf <- 1`, `buf` keeps its value, no byte of the chunk is taken, no frame is emitted (R65). -/
def State.takeOverflow (s : State) : State := { s with ovf := true, out := s.out ++ [.overflow] }

/-- The return from it, and from any state of U1: `buf <- []`, `ovf <- 0` (R131). -/
def State.clear (s : State) : State := { s with buf := [], ovf := false }

/-! The input port. -/

/-- The host issues a command after those already on the input port. -/
def State.issue (s : State) (c : Command) : State := { s with inq := s.inq ++ [c] }

/-- The command is taken from the input port and its operation begins. -/
def State.begin (s : State) (c : Command) (rest : List Command) : State := { s with inq := rest, busy := c.overlap }

/-- The operation has returned: nothing is in progress. -/
def State.finish (s : State) : State := { s with busy := .idle }

/-- What the step adds around a meaning: a refused operation changes nothing (R248), a completed one has returned (R62). -/
def finishOutcome (o : Outcome) : Outcome :=
  match o with
  | .next t => .next t.finish
  | .fault f => .fault f
  | .refused r => .refused r

/-- The refusal of a transaction in which the decoder reads no instruction. -/
def refusalOfReject (r : Reject) : Refusal :=
  match r with
  | .noOperation => .noOperation
  | .reservedOp => .reservedOp
  | .badOperands => .badOperands
  | .notAckPattern => .notAckPattern

/-- The command at the head of the input port is the given one. -/
def State.placeCommand (s : State) (c : Command) : State := { s with inq := c :: s.inq }

/-- A table row's word as a command that overlaps nothing. -/
def tableCommand (nbits w : Nat) : Command :=
  { fmt := (tableTransaction nbits w).1, bytes := (tableTransaction nbits w).2, overlap := .idle }

end Sys2Proof.Machine
end

