-- ==== Sys2Proof/Machine/Crc.lean ====
section
/-! DEFINITION. U2 CRC: CRC.STEP and CRC16 (spec/41_crc16_x25.md). -/

namespace Sys2Proof.Machine

/-- One iteration of the bit loop: logical shift right; `0x8408` is XORed in when the shifted-out bit is 1 (R150). -/
def crcBit (reg : BitVec 16) : BitVec 16 := if reg.getLsbD 0 then (reg >>> 1) ^^^ crcPoly else reg >>> 1

/-- `k` iterations of the bit loop. -/
def crcBits (k : Nat) (reg : BitVec 16) : BitVec 16 :=
  match k with
  | 0 => reg
  | j + 1 => crcBits j (crcBit reg)

/-- CRC.STEP's register: the byte enters the low 8 bits, then eight iterations (R150). -/
def crcStep (reg : BitVec 16) (b : Byte) : BitVec 16 := crcBits 8 (reg ^^^ b.setWidth 16)

/-- CRC16's value: from `0xFFFF`, one CRC.STEP for each byte in order, then the complement (R151). -/
def crc16 (m : Bytes) : BitVec 16 := ~~~(m.foldl crcStep crcInit)

/-- CRC.STEP (R150). -/
def execCrcStep (reg : BitVec 16) (b : Byte) (s : State) : Outcome := .next (s.deliver (.crcReg (crcStep reg b)))

/-- CRC16 (R151): delivered as the value and as its two bytes, high byte first (R152). -/
def execCrc16 (m : Bytes) (s : State) : Outcome := .next (s.deliver (.crc (crc16 m) (be16Bytes (crc16 m))))

end Sys2Proof.Machine
end

