-- ==== Sys2Proof/Machine/Ack.lean ====
section
/-! DEFINITION. U5 ACK: ACK.BUILD and ACK.FROMFRAME (spec/44_ack_assembler.md), and the acknowledgement frame as a row of
the table (spec/30_encoding.md R88). -/

namespace Sys2Proof.Machine

/-- The four bytes the CRC of an acknowledgement covers: length byte, type, serial (R230). -/
def ackBody (t s0 s1 : Byte) : Bytes := [ackLenByte, t, s0, s1]

/-- The acknowledgement frame (R88, R230): start marker, body, CRC of the body high byte first, end marker. -/
def ackFrame (t s0 s1 : Byte) : Bytes :=
  [startByte, startByte] ++ ackBody t s0 s1 ++ be16Bytes (crc16 (ackBody t s0 s1)) ++ [endByte0, endByte1]

/-- ACK.BUILD (R230). -/
def execAckBuild (t s0 s1 : Byte) (s : State) : Outcome := .next (s.deliver (.ack (ackFrame t s0 s1)))

/-- ACK.FROMFRAME (R231): refused on fewer than 14 bytes; the type at offset 3, the serial at offsets 12 and 13. -/
def execAckFromframe (f : Bytes) (s : State) : Outcome :=
  if f.length < ackMinLen then .refused .ackShortFrame
  else .next (s.deliver (.ack (ackFrame (byteAt f offType) (byteAt f offSeq) (byteAt f (offSeq + 1)))))

/-- FRAME.ACK (R88): the acknowledgement frame with the echoed type and serial of the row is delivered to the transport.
Its CRC field is the CRC of the body, as R88 defines it, whatever the 16 bits `c` of the word are: FDR makes CRCs and
never checks one (R154; log entry 8). -/
def execFrameAck (t s0 s1 : Byte) (_c : BitVec 16) (s : State) : Outcome :=
  .next (s.deliver (.ack (ackFrame t s0 s1)))

end Sys2Proof.Machine
end

