-- ==== Sys2Proof/Machine/Fext.lean ====
section
/-! DEFINITION. U4 FEXT: the primitive readers, the field decoders, FX.CLASSIFY and FX.EXTRACT
(spec/43_field_extractor.md). -/

namespace Sys2Proof.Machine

/-! Primitive readers: a value, or `OutOfRangeError` as the result (R241). -/

/-- What a reader delivers. -/
def readResult {α : Type} (mk : α → Result) (v : Option α) : Result :=
  match v with
  | some x => mk x
  | none => .outOfRange

/-- RD.U8 (R185). -/
def execRdU8 (src : Bytes) (off : Nat) (s : State) : Outcome := .next (s.deliver (readResult .u8 (readU8 src off)))

/-- RD.U16BE (R186). -/
def execRdU16be (src : Bytes) (off : Nat) (s : State) : Outcome :=
  .next (s.deliver (readResult .u16 (readU16be src off)))

/-- RD.U32BE (R187). -/
def execRdU32be (src : Bytes) (off : Nat) (s : State) : Outcome :=
  .next (s.deliver (readResult .u32 (readU32be src off)))

/-- RD.BYTES (R188). -/
def execRdBytes (src : Bytes) (off n : Nat) (s : State) : Outcome :=
  .next (s.deliver (readResult .bytes (slice src off n)))

/-! Field decoders. -/

/-- The two digits of one identifier byte (R189, R52). -/
def idByteDigits (order : DigitOrder) (b : Byte) : List (BitVec 4) :=
  match order with
  | .lowFirst => [b.extractLsb' 0 4, b.extractLsb' 4 4]
  | .highFirst => [b.extractLsb' 4 4, b.extractLsb' 0 4]

/-- The digits of the identifier bytes, in byte order (R189). -/
def idDigitList (order : DigitOrder) (bs : Bytes) : List (BitVec 4) := bs.flatMap (idByteDigits order)

/-- ID.DECODE's result (R189). -/
def decodeId (order : DigitOrder) (bs : Bytes) : IdDigits :=
  { digits := idDigitList order bs, nondecimal := nondecimal (idDigitList order bs) }

/-- ID.DECODE (R189). -/
def execIdDecode (b : Bytes8) (s : State) : Outcome :=
  .next (s.deliver (.digits (decodeId s.params.idDigitOrder (bytes8List b))))

/-- STATUS.DECODE's result (R198). -/
def decodeStatus (st : Byte) : StatusBits :=
  { latSouth := st.getLsbD 0, lonWest := st.getLsbD 1, unfixed := st.getLsbD 2, sats := st.extractLsb' 4 4 }

/-- STATUS.DECODE (R198). -/
def execStatusDecode (st : Byte) (s : State) : Outcome := .next (s.deliver (.statusBits (decodeStatus st)))

/-- The hemisphere letter (R199). -/
def hemisphereLetter (axis : Axis) (neg : Bool) : Letter :=
  match axis with
  | .lat => if neg then .s else .n
  | .lon => if neg then .w else .e

/-- `udeg`: millionths of a degree, to nearest (R199). -/
def microDegrees (raw : BitVec 32) : BitVec 32 := BitVec.ofNat 32 ((10 * raw.toNat + 9) / 18)

/-- `deg`: the exact rational (R199). -/
def degrees (raw : BitVec 32) (neg : Bool) : Rat :=
  mkRat (if neg then -(raw.toNat : Int) else (raw.toNat : Int)) coordDivisor

/-- COORD.CONVERT's result (R199). -/
def convertCoord (raw : BitVec 32) (neg : Bool) (axis : Axis) : Coord :=
  { sign := neg, mag := raw, letter := hemisphereLetter axis neg, deg := degrees raw neg, udeg := microDegrees raw }

/-- COORD.CONVERT (R199). -/
def execCoordConvert (raw : BitVec 32) (neg : Bool) (axis : Axis) (s : State) : Outcome :=
  .next (s.deliver (.coord (convertCoord raw neg axis)))

/-! Whole-frame operations. -/

/-- FX.CLASSIFY's result (R190). -/
def classify (f : Bytes) : Cls :=
  if hasStart f then
    if f.length < 4 then .rejected
    else if byteAt f offType = typeLocfam then .locfam
    else if byteAt f offType = typeHeartbeat then .heartbeat
    else .unknown
  else .rejected

/-- FX.CLASSIFY (R190). -/
def execFxClassify (f : Bytes) (s : State) : Outcome := .next (s.deliver (.cls (classify f)))

/-- REC as FX.EXTRACT starts it (R191). -/
def recStart (f : Bytes) : Rec :=
  { cls := .rejected, err := .noError, flen := f.length, gpsReady := false, hdr := none, ident := none, seq := none,
    latRaw := none, lonRaw := none, alt := none, spdRaw := none, course := none, ts := none, st := none }

/-- Capturing an error: the code goes into `REC.err`, what was extracted stays (R195, R251). -/
def Rec.fail (r : Rec) (e : ErrCode) : Rec := { r with err := e }

/-- REC after step 2 of R191: the header's fields and the class. -/
def recHeader (c : Cls) (f : Bytes) : Rec :=
  { recStart f with cls := c, hdr := some { lenByte := byteAt f offLen, msgType := byteAt f offType } }

/-- The identifier's fields (R192). -/
def identFields (p : Params) (b : Bytes) : IdFields := { id := b, decoded := decodeId p.idDigitOrder b }

/-- The timestamp's fields, six bytes in order, the year from 2000 (R201). -/
def tsFields (t : Bytes) : TsFields :=
  { yy := byteAt t 0, mo := byteAt t 1, dd := byteAt t 2, hh := byteAt t 3, mi := byteAt t 4, ss := byteAt t 5,
    year := 2000 + (byteAt t 0).setWidth 12 }

/-- The fields that need the status byte: its bits and the converted coordinates (R192). -/
def stFields (status : Byte) (lat lon : BitVec 32) : StFields :=
  { status := status, bits := decodeStatus status,
    latUdeg := (convertCoord lat (decodeStatus status).latSouth .lat).udeg,
    lonUdeg := (convertCoord lon (decodeStatus status).lonWest .lon).udeg,
    latLetter := (convertCoord lat (decodeStatus status).latSouth .lat).letter,
    lonLetter := (convertCoord lon (decodeStatus status).lonWest .lon).letter }

/-- The timestamp and the status, the last two reads of the strict order (R192, R194). -/
def extractTail (f : Bytes) (lat lon : BitVec 32) (r : Rec) : Rec :=
  match slice f offTs 6 with
  | none => r.fail .outOfRange
  | some t =>
    match readU8 f offStatus with
    | none => { r with ts := some (tsFields t) }.fail .outOfRange
    | some st => { r with ts := some (tsFields t), st := some (stFields st lat lon) }

/-- Latitude, longitude, altitude, speed, course, in that order, then the rest (R192, R194). -/
def extractFix (f : Bytes) (r : Rec) : Rec :=
  match readU32be f offLat with
  | none => r.fail .outOfRange
  | some lat =>
    match readU32be f offLon with
    | none => { r with latRaw := some lat }.fail .outOfRange
    | some lon =>
      match readU16be f offAlt with
      | none => { r with latRaw := some lat, lonRaw := some lon }.fail .outOfRange
      | some alt =>
        match readU16be f offSpd with
        | none => { r with latRaw := some lat, lonRaw := some lon, alt := some alt }.fail .outOfRange
        | some spd =>
          match readU16be f offCourse with
          | none =>
            { r with latRaw := some lat, lonRaw := some lon, alt := some alt, spdRaw := some spd }.fail .outOfRange
          | some course =>
            extractTail f lat lon
              { r with latRaw := some lat, lonRaw := some lon, alt := some alt, spdRaw := some spd,
                       course := some course }

/-- The location-family path (R192): identifier, sequence number, length test, then the fix. -/
def extractLocfam (p : Params) (f : Bytes) : Rec :=
  match slice f offId 8 with
  | none => (recHeader .locfam f).fail .outOfRange
  | some b =>
    match readU16be f offSeq with
    | none => { recHeader .locfam f with ident := some (identFields p b) }.fail .outOfRange
    | some q =>
      if f.length < gpsReadyMinLen then
        { recHeader .locfam f with ident := some (identFields p b), seq := some q }
      else
        extractFix f { recHeader .locfam f with ident := some (identFields p b), seq := some q, gpsReady := true }

/-- The heartbeat path (R196). -/
def extractHeartbeat (p : Params) (f : Bytes) : Rec :=
  match slice f offId 8 with
  | none => (recHeader .heartbeat f).fail .outOfRange
  | some b => { recHeader .heartbeat f with ident := some (identFields p b) }

/-- The unknown path (R197). -/
def extractUnknown (f : Bytes) : Rec := recHeader .unknown f

/-- The two rejections of R191: no start marker, or a start marker and no message type. -/
def extractRejected (f : Bytes) : Rec :=
  if hasStart f then (recStart f).fail .outOfRange else (recStart f).fail .invalidStartMarker

/-- FX.EXTRACT's result (R191). -/
def extract (p : Params) (f : Bytes) : Rec :=
  match classify f with
  | .rejected => extractRejected f
  | .locfam => extractLocfam p f
  | .heartbeat => extractHeartbeat p f
  | .unknown => extractUnknown f

/-- FX.EXTRACT (R191). -/
def execFxExtract (f : Bytes) (s : State) : Outcome := .next (s.deliver (.record (extract s.params f)))

end Sys2Proof.Machine
end

