-- ==== Sys2Proof/Machine/Frames.lean ====
section
/-! DEFINITION. The four frame classes of the wire format (spec/30_encoding.md R94): what FDR's extractor does with an
inbound frame of the class, by the rule the row of spec/opcode_table.json names (R192, R196, R197, R191; log entry 7). -/

namespace Sys2Proof.Machine

/-- The bytes of a location-family frame (R85). -/
def locfamBytes (lenByte : Byte) (rest : Bytes) : Bytes := startByte :: startByte :: lenByte :: typeLocfam :: rest

/-- The bytes of a heartbeat frame (R86). -/
def heartbeatBytes (lenByte : Byte) (rest : Bytes) : Bytes :=
  startByte :: startByte :: lenByte :: typeHeartbeat :: rest

/-- The bytes of a frame of another message type (R94). -/
def unknownBytes (lenByte msgType : Byte) (rest : Bytes) : Bytes := startByte :: startByte :: lenByte :: msgType :: rest

/-- FRAME.LOCFAM (R192). -/
def execFrameLocfam (lenByte : Byte) (rest : Bytes) (s : State) : Outcome :=
  .next (s.deliver (.record (extractLocfam s.params (locfamBytes lenByte rest))))

/-- FRAME.HEARTBEAT (R196). -/
def execFrameHeartbeat (lenByte : Byte) (rest : Bytes) (s : State) : Outcome :=
  .next (s.deliver (.record (extractHeartbeat s.params (heartbeatBytes lenByte rest))))

/-- FRAME.UNKNOWN (R197). -/
def execFrameUnknown (lenByte msgType : Byte) (rest : Bytes) (s : State) : Outcome :=
  .next (s.deliver (.record (extractUnknown (unknownBytes lenByte msgType rest))))

/-- FRAME.REJECTED (R191, R242). -/
def execFrameRejected (f : Bytes) (s : State) : Outcome := .next (s.deliver (.record (extractRejected f)))

end Sys2Proof.Machine
end

