-- ==== Sys2Proof/Machine/Reasm.lean ====
section
/-! DEFINITION. U1 REASM: RSM.FEED, RSM.CLEAR, RSM.STATUS (spec/40_reassembler.md). -/

namespace Sys2Proof.Machine

/-- A feed whose precondition holds: overflow is tested first, then the chunk is appended and the buffer scanned (R121). -/
def feed (chunk : Bytes) (s : State) : State :=
  if fits s.params s.buf chunk then
    (s.setBuf (scan (Memory.append s.buf chunk)).2).deliver (.frames (scan (Memory.append s.buf chunk)).1)
  else s.takeOverflow

/-- RSM.FEED (R120, R121): refused while an earlier RSM.FEED or RSM.CLEAR is in progress, or while `ovf = 1`. -/
def execRsmFeed (chunk : Bytes) (s : State) : Outcome :=
  match s.busy with
  | .feed => .refused .concurrentFeed
  | .clear => .refused .concurrentFeed
  | .idle => if s.ovf then .refused .feedAfterOverflow else .next (feed chunk s)

/-- RSM.CLEAR (R131): refused while an RSM.FEED is in progress; delivers nothing. -/
def execRsmClear (s : State) : Outcome :=
  match s.busy with
  | .feed => .refused .concurrentFeed
  | .clear => .next s.clear
  | .idle => .next s.clear

/-- RSM.STATUS (R132). -/
def execRsmStatus (s : State) : Outcome := .next (s.deliver (.status (statusWord s)))

end Sys2Proof.Machine
end

