-- ==== Sys2Proof/Machine/Xorv.lean ====
section
/-! DEFINITION. U3 XORV: XOR.SUM and XOR.VERIFY (spec/42_xor_checksum.md). -/

namespace Sys2Proof.Machine

/-- The exclusive-or of the bytes at offsets `lo` to `hi - 1`, from `0x00` (R170). -/
def xorRange (src : Bytes) (lo hi : Nat) : Byte := ((src.drop lo).take (hi - lo)).foldl (· ^^^ ·) 0

/-- XOR.SUM (R170): refused unless `lo <= hi <= len`. -/
def execXorSum (src : Bytes) (lo hi : Nat) (s : State) : Outcome :=
  if lo ≤ hi ∧ hi ≤ src.length then .next (s.deliver (.xorByte (xorRange src lo hi))) else .refused .badRange

/-- The computed byte of XOR.VERIFY: the span ends before the checksum byte at `c`, and is empty when it would start
after it (R171). -/
def xorSpan (p : Params) (f : Bytes) (c : Nat) : Byte :=
  if xorFromOffset p.xorFrom ≤ c then xorRange f (xorFromOffset p.xorFrom) c else 0

/-- The bundle of XOR.VERIFY for a frame whose checksum byte is at offset `c` (R171, R34). -/
def checkAt (p : Params) (f : Bytes) (c : Nat) : Chk :=
  { expected := byteAt f c, actual := xorSpan p f c, valid := byteAt f c == xorSpan p f c }

/-- XOR.VERIFY (R171): refused on fewer than 3 bytes. -/
def execXorVerify (f : Bytes) (s : State) : Outcome :=
  if f.length < xorCsBack then .refused .notAFrame
  else .next (s.deliver (.chk (checkAt s.params f (f.length - xorCsBack))))

end Sys2Proof.Machine
end

