-- ==== Sys2Proof/Machine/Dispatch.lean ====
section
/-! DEFINITION. One arm per instruction. -/

namespace Sys2Proof.Machine

def exec (i : Instr) (s : State) : Host.Outcome State Fault Refusal :=
  match i with
  -- U1 REASM
  | .rsmFeed chunk => Sys2Proof.Machine.execRsmFeed chunk s
  | .rsmClear => Sys2Proof.Machine.execRsmClear s
  | .rsmStatus => Sys2Proof.Machine.execRsmStatus s
  -- U2 CRC
  | .crcStep reg b => Sys2Proof.Machine.execCrcStep reg b s
  | .crc16 m => Sys2Proof.Machine.execCrc16 m s
  -- U3 XORV
  | .xorSum src lo hi => Sys2Proof.Machine.execXorSum src lo hi s
  | .xorVerify f => Sys2Proof.Machine.execXorVerify f s
  -- U4 FEXT
  | .rdU8 src off => Sys2Proof.Machine.execRdU8 src off s
  | .rdU16be src off => Sys2Proof.Machine.execRdU16be src off s
  | .rdU32be src off => Sys2Proof.Machine.execRdU32be src off s
  | .rdBytes src off n => Sys2Proof.Machine.execRdBytes src off n s
  | .idDecode b => Sys2Proof.Machine.execIdDecode b s
  | .fxClassify f => Sys2Proof.Machine.execFxClassify f s
  | .fxExtract f => Sys2Proof.Machine.execFxExtract f s
  | .statusDecode st => Sys2Proof.Machine.execStatusDecode st s
  | .coordConvert raw neg axis => Sys2Proof.Machine.execCoordConvert raw neg axis s
  -- U5 ACK
  | .ackBuild t s0 s1 => Sys2Proof.Machine.execAckBuild t s0 s1 s
  | .ackFromframe f => Sys2Proof.Machine.execAckFromframe f s
  -- the wire format
  | .frameLocfam lenByte rest => Sys2Proof.Machine.execFrameLocfam lenByte rest s
  | .frameHeartbeat lenByte rest => Sys2Proof.Machine.execFrameHeartbeat lenByte rest s
  | .frameUnknown lenByte msgType rest => Sys2Proof.Machine.execFrameUnknown lenByte msgType rest s
  | .frameRejected f => Sys2Proof.Machine.execFrameRejected f s
  | .frameAck t s0 s1 c => Sys2Proof.Machine.execFrameAck t s0 s1 c s

end Sys2Proof.Machine
end

