-- ==== Sys2Proof/Machine/Step.lean ====
section
/-! DEFINITION. One step of the machine: the operation the host issued next is performed (spec/20_memory.md R57, R60). -/

namespace Sys2Proof.Machine

/-- One step. With nothing on the input port FDR waits: it is quiescent and nothing changes (R270, R286). Otherwise the
next command is decoded and performed, as one atomic transition (R57). -/
def step (s : State) : Host.Outcome State Fault Refusal :=
  match s.inq with
  | [] => .next s
  | c :: rest =>
    match decode c.fmt c.bytes with
    | .rejected r => .refused (refusalOfReject r)
    | .ok i => finishOutcome (exec i (s.begin c rest))

/-- The instruction of a table row's word stands where the next step takes it: at the head of the input port. -/
def State.withFetchWord (s : State) (nbits w : Nat) : State := s.placeCommand (tableCommand nbits w)

end Sys2Proof.Machine
end

