-- ==== Sys2Proof/Safety.lean ====
section
/-! DEFINITION. The words in which statements about the machine are made: the invariant of an instance, what a faulted
instance and a faulted run are, what the spec calls a delimitable frame, garbage, and the reassembly of a byte sequence told without an
algorithm's search. -/

namespace Sys2Proof.Machine

/-- The pair `b0 b1` stands at offset `i` (R7). -/
def PairAt (bs : Bytes) (b0 b1 : Byte) (i : Nat) : Prop := bs[i]? = some b0 ∧ bs[i + 1]? = some b1

/-- A start marker stands at offset `i` (R81). -/
def StartAt (bs : Bytes) (i : Nat) : Prop := PairAt bs 0x78 0x78 i

/-- An end marker stands at offset `i` (R82). -/
def EndAt (bs : Bytes) (i : Nat) : Prop := PairAt bs 0x0d 0x0a i

/-- The invariant of the FrameBuffer between operations (R21). -/
def BufferInvariant (buf : Bytes) : Prop :=
  buf = [] ∨ (2 ≤ buf.length ∧ buf[0]? = some 0x78 ∧ buf[1]? = some 0x78 ∧ ∀ i, 4 ≤ i → ¬ EndAt buf i)

/-- The invariant of an instance: the FrameBuffer's form (R21), its length within a finite capacity (R21), no overflow
without a finite capacity (R23), and no operation in progress between operations (R57). -/
structure Inv (s : State) : Prop where
  buffer : BufferInvariant s.buf
  capacity : ∀ cap, s.params.bufCap = some cap → s.buf.length ≤ cap
  unbounded : s.params.bufCap = none → s.ovf = false
  idle : s.busy = .idle

/-- A faulted instance: its buffer has overflowed and it has not been cleared since (R65). It is in no good state. -/
def Faulted (s : State) : Prop := s.ovf = true

/-- A safe state: the invariant holds and the instance is not faulted. -/
def Safe (s : State) : Prop := Inv s ∧ ¬ Faulted s

/-- A run of `k` steps has faulted: `ovf` was 1 in some state of it, the first and the last included, whether or not an
RSM.CLEAR has cleared it since (R286: "A run in which `ovf` became 1 has faulted"). -/
def RunFaulted (k : Nat) (s : State) : Prop := ∃ j t, j ≤ k ∧ Sys2Proof.core.run j s = .next t ∧ Faulted t

/-- A run of `k` steps is safe: no step of it is refused and every state of it, the last included, is safe (R286). A safe
run may end with ACCUMULATING: a partial frame is "a normal end, not an error". -/
def SafeRun (k : Nat) (s : State) : Prop := ∀ j, j ≤ k → ∃ t, Sys2Proof.core.run j s = .next t ∧ Safe t

/-- The result of a run that has come to `s`: "the ordered list of frames (and of CHK, REC and acknowledgement values
...) together with the final `buf` and `ovf`" (R286). -/
structure RunResult where
  results : List Result
  buf : Bytes
  ovf : Bool
  deriving DecidableEq, Repr

/-- The result of the run since reset that has come to `s` (R286). -/
def runResult (s : State) : RunResult := { results := s.out, buf := s.buf, ovf := s.ovf }

/-- Whether the run that gave a result has faulted: an overflow delivered the fault (log entry 6). -/
def RunResult.faulted (r : RunResult) : Bool := r.results.contains .overflow

/-- RSM.FEED's preconditions hold and the chunk fits (R120, R65). -/
def CanFeed (s : State) (chunk : Bytes) : Prop :=
  s.busy = .idle ∧ s.ovf = false ∧ ∀ cap, s.params.bufCap = some cap → s.buf.length + chunk.length ≤ cap

/-- A delimitable frame (R133). -/
def Delimitable (f : Frame) : Prop :=
  6 ≤ f.length ∧ StartAt f 0 ∧ EndAt f (f.length - 2) ∧ ∀ i, 4 ≤ i → i + 3 ≤ f.length → ¬ EndAt f i

/-- Garbage that may stand around frames: no start marker in it, and its last byte is not `78` (R130). -/
def Garbage (g : Bytes) : Prop := (∀ i, ¬ StartAt g i) ∧ g.getLast? ≠ some 0x78

/-- What reassembly makes of a byte sequence (R121, R122): `Reassembles bs fs rest` says that `fs` are the frames
emitted, in order, and `rest` the bytes kept. -/
inductive Reassembles : Bytes → List Frame → Bytes → Prop where
  /-- Step C: no start marker anywhere; every byte is dropped. -/
  | garbage (bs : Bytes) (h : ∀ i, ¬ StartAt bs i) : Reassembles bs [] []
  /-- Steps D and F: the bytes before the first start marker are dropped; no end marker at or after offset 4 from it. -/
  | wait (bs : Bytes) (k : Nat) (hs : StartAt bs k) (first : ∀ i, i < k → ¬ StartAt bs i)
      (he : ∀ i, 4 ≤ i → ¬ EndAt (bs.drop k) i) : Reassembles bs [] (bs.drop k)
  /-- Steps D and G: the frame from the first start marker to the first end marker at or after offset 4 from it is
  emitted, and the rest is reassembled. -/
  | emit (bs : Bytes) (k e : Nat) (fs : List Frame) (rest : Bytes) (hs : StartAt bs k)
      (first : ∀ i, i < k → ¬ StartAt bs i) (h4 : 4 ≤ e) (he : EndAt (bs.drop k) e)
      (least : ∀ i, 4 ≤ i → i < e → ¬ EndAt (bs.drop k) i)
      (more : Reassembles (bs.drop (k + (e + 2))) fs rest) :
      Reassembles bs ((bs.drop k).take (e + 2) :: fs) rest

/-- Feeding chunks one after another: from `s`, with the frames of all the feeds in order, to the state at the end (R60). -/
inductive FeedRun : State → List Bytes → List Frame → State → Prop where
  | done (s : State) : FeedRun s [] [] s
  | more (s t u : State) (c : Bytes) (cs : List Bytes) (fs gs : List Frame)
      (feeds : exec (.rsmFeed c) s = .next t) (emits : t.out = s.out ++ [.frames fs]) (next : FeedRun t cs gs u) :
      FeedRun s (c :: cs) (fs ++ gs) u

/-- The conditions under which an instruction is refused, each with its reason (R248). -/
inductive Refuses : Instr → State → Refusal → Prop where
  /-- RSM.FEED while an earlier RSM.FEED or RSM.CLEAR has not returned (R61, R120). -/
  | feedDuring (chunk : Bytes) (s : State) (h : s.busy ≠ .idle) : Refuses (.rsmFeed chunk) s .concurrentFeed
  /-- RSM.CLEAR while an earlier RSM.FEED has not returned (R61, R131). -/
  | clearDuring (s : State) (h : s.busy = .feed) : Refuses .rsmClear s .concurrentFeed
  /-- RSM.FEED while `ovf = 1` (R23). -/
  | afterOverflow (chunk : Bytes) (s : State) (hb : s.busy = .idle) (h : s.ovf = true) :
      Refuses (.rsmFeed chunk) s .feedAfterOverflow
  /-- XOR.SUM on a range that does not lie inside the sequence (R170). -/
  | badRange (src : Bytes) (lo hi : Nat) (s : State) (h : hi < lo ∨ src.length < hi) :
      Refuses (.xorSum src lo hi) s .badRange
  /-- XOR.VERIFY on fewer than 3 bytes (R171). -/
  | notAFrame (f : Bytes) (s : State) (h : f.length < 3) : Refuses (.xorVerify f) s .notAFrame
  /-- ACK.FROMFRAME on fewer than 14 bytes (R231). -/
  | ackShortFrame (f : Bytes) (s : State) (h : f.length < 14) : Refuses (.ackFromframe f) s .ackShortFrame

end Sys2Proof.Machine
end

