-- ==== Sys2Proof/Certificates/Slice0/Obligations.lean ====
section
/-! DEFINITION. The statements for the provers. Each names in its docstring the rule or the decision of spec/ it rests on.
A result is stated as the whole next state, so that it says what completes, what is delivered and that nothing else
changes; where an instruction's rule is written over other operations, the statement is written over their results. -/

open Sys2Proof Sys2Proof.Machine

/-! Reset, the step and the decoder. -/

/-- A new instance, whatever its parameters, is empty and waits: `buf = []`, EMPTY, `ovf = 0`, and a step without a
command changes nothing. That the object starts empty is the spec's decision D24 (70_reset_and_hazards.md section 1);
the idle step is the model's (log entry 1). -/
def Obligations.NewInstanceIsEmptyAndWaits : Prop :=
  State.reset = State.create Params.default ∧
  ∀ p : Params, (State.create p).buf = [] ∧ rsmState (State.create p).buf = .empty ∧ (State.create p).ovf = false ∧
    step (State.create p) = .next (State.create p)

/-- The invariant of an instance holds of every new one (10_state.md section 1). -/
def Obligations.NewInstanceMeetsInvariant : Prop := ∀ p : Params, Inv (State.create p)

/-- Every step keeps the invariant: the FrameBuffer is empty or opens with the start marker and holds no end marker at or
after offset 4, it stays within a finite capacity, an unbounded instance never overflows (10_state.md section 1). -/
def Obligations.StepKeepsInvariant : Prop := ∀ s t : State, Inv s → step s = .next t → Inv t

/-- When the bytes of the next command decode to an instruction, the step performs it: the command leaves the input
port, the operation it overlaps is noted, the meaning runs, and when it completes nothing is in progress any more; a
refusal of the meaning is the step's, and no meaning faults (the input port is the model's, log entries 1, 6 and 10). -/
def Obligations.StepPerformsDecodedInstruction : Prop :=
  ∀ (s : State) (c : Command) (rest : List Command) (i : Instr),
    s.inq = c :: rest → decode c.fmt c.bytes = .ok i →
    (∀ t, exec i { s with inq := rest, busy := c.overlap } = .next t → step s = .next { t with busy := .idle }) ∧
    (∀ r, exec i { s with inq := rest, busy := c.overlap } = .refused r → step s = .refused r) ∧
    (∀ f, exec i { s with inq := rest, busy := c.overlap } ≠ .fault f)

/-- No step writes a parameter or takes back a delivered result; it takes at most the next command from the input port
and delivers at most one result (10_state.md sections 2 and 3; the ports are the model's, log entries 1 and 2). -/
def Obligations.StepOnlyAddsOneResult : Prop :=
  ∀ s t : State, step s = .next t →
    t.params = s.params ∧ t.inq = s.inq.tail ∧ (t.out = s.out ∨ ∃ r, t.out = s.out ++ [r])

/-- A command whose five select bits are none of the 18 operation numbers is refused, whatever its operands and the
state are (30_encoding.md section 6; the numbers are the spec's decision D23, the byte that holds the select is the
model's, log entry 4). -/
def Obligations.ReservedSelectIsRefused : Prop :=
  ∀ (s : State) (b : Byte) (operands : Bytes) (ov : InProgress) (rest : List Command),
    s.inq = ⟨.op5, b :: operands, ov⟩ :: rest →
    b.toNat % 32 ∈ [0x03, 0x06, 0x07, 0x0A, 0x0B, 0x15, 0x16, 0x17, 0x1A, 0x1B, 0x1C, 0x1D, 0x1E, 0x1F] →
    step s = .refused .reservedOp

/-- Decoding inverts encoding, for every well-formed instruction with every operand at every value (30_encoding.md
sections 2, 5 and 6; the operand layout is the model's, log entry 3). -/
def Obligations.DecodeInvertsEncode : Prop := ∀ i : Instr, i.wf = true → decode (encode i).1 (encode i).2 = .ok i

/-- What the decoder reads is well-formed (30_encoding.md section 5: the rows are tried in order). -/
def Obligations.DecodeReadsWellFormed : Prop :=
  ∀ (fmt : Format) (bs : Bytes) (i : Instr), decode fmt bs = .ok i → i.wf = true ∧ i.format = fmt

/-- A frame of at least four bytes is of the class of the first row of the header table that matches, with
`H = f[0]*2^24 + f[1]*2^16 + f[2]*2^8 + f[3]`; a shorter sequence is REJECTED (30_encoding.md section 5). -/
def Obligations.HeaderTableClassifiesFrames : Prop :=
  (∀ (b0 b1 b2 b3 : Byte) (rest : Bytes) (h : BitVec 32),
    h.toNat = b0.toNat * 2 ^ 24 + b1.toNat * 2 ^ 16 + b2.toNat * 2 ^ 8 + b3.toNat →
    decode .frame32 (b0 :: b1 :: b2 :: b3 :: rest) = .ok
      (if h &&& 0xFFFF00FF = 0x78780001 then .frameLocfam b2 rest
       else if h &&& 0xFFFF00FF = 0x78780004 then .frameHeartbeat b2 rest
       else if h &&& 0xFFFF0000 = 0x78780000 then .frameUnknown b2 b3 rest
       else .frameRejected (b0 :: b1 :: b2 :: b3 :: rest))) ∧
  (∀ f : Bytes, f.length < 4 → decode .frame32 f = .ok (.frameRejected f))

/-- Words written out from the tables of 30_encoding.md sections 2, 5 and 6 decode to the instructions they stand for. -/
def Obligations.WordsOfTheTablesDecode : Prop :=
  decode .op5 [0b00000000, 0x78, 0x78] = .ok (.rsmFeed [0x78, 0x78]) ∧
  decode .op5 [0b00000001] = .ok .rsmClear ∧
  decode .op5 [0b00001001, 0x0d, 0x0a] = .ok (.xorVerify [0x0d, 0x0a]) ∧
  decode .op5 [0b00011000, 0x01, 0x00, 0x08] = .ok (.ackBuild 0x01 0x00 0x08) ∧
  decode .frame32 [0b01111000, 0b01111000, 0x05, 0b00010110, 0x00] = .ok (.frameUnknown 0x05 0x16 [0x00]) ∧
  decode .ack80 [0b01111000, 0b01111000, 0b00000101, 0x01, 0x00, 0x08, 0x44, 0x1d, 0b00001101, 0b00001010] =
    .ok (.frameAck 0x01 0x00 0x08 0x441D)

/-! U1 REASM. -/

/-- RSM.FEED reassembles the buffer with the chunk appended: exactly one list of frames and one rest are right, they are
what the operation delivers and keeps, and nothing else changes (40_reassembler.md section 1; that "locate" means the
first occurrence is the spec's decision D3). -/
def Obligations.FeedReassemblesBufferAndChunk : Prop :=
  ∀ (s : State) (chunk : Bytes), CanFeed s chunk →
    (∃ fs rest, Reassembles (s.buf ++ chunk) fs rest) ∧
    ∀ fs rest, Reassembles (s.buf ++ chunk) fs rest →
      exec (.rsmFeed chunk) s = .next { s with buf := rest, out := s.out ++ [.frames fs] }

/-- A chunk that does not fit a finite buffer overflows it: `ovf` is set, no byte is taken, no frame is emitted, and in
the state it leaves every RSM.FEED is refused (20_memory.md section 6: the spec's decision D2; that the fault is taken
as a next state is the model's, log entry 6). -/
def Obligations.OverflowSetsFlagAndTakesNothing : Prop :=
  ∀ (s : State) (chunk : Bytes) (cap : Nat),
    s.busy = .idle → s.ovf = false → s.params.bufCap = some cap → cap < s.buf.length + chunk.length →
    exec (.rsmFeed chunk) s = .next { s with ovf := true, out := s.out ++ [.overflow] } ∧
    ∀ later : Bytes, exec (.rsmFeed later) { s with ovf := true, out := s.out ++ [.overflow] } =
      .refused .feedAfterOverflow

/-- `ovf` is sticky: a completed step from a state with `ovf = 1` leaves it 1 unless its command is RSM.CLEAR, and clears
it, with the buffer, when it is (10_state.md section 1: the spec's decision D2). -/
def Obligations.OverflowFlagIsSticky : Prop :=
  ∀ s t : State, s.ovf = true → step s = .next t →
    ((∀ c rest, s.inq = c :: rest → decode c.fmt c.bytes ≠ .ok .rsmClear) → t.ovf = true) ∧
    (∀ c rest, s.inq = c :: rest → decode c.fmt c.bytes = .ok .rsmClear → t.ovf = false ∧ t.buf = [])

/-- Operations of U1 that overlap an earlier one are refused: an RSM.FEED during an RSM.FEED (20_memory.md section 5) or
during an RSM.CLEAR (40_reassembler.md section 1, the precondition of RSM.FEED), an RSM.CLEAR during an RSM.FEED; refusing
is the spec's decision D25. That the reason is `ConcurrentFeed` also while `ovf = 1` is the model's (log entry 11), and so
is the overlap as an input (log entry 10). -/
def Obligations.OverlappingOperationsRefused : Prop :=
  (∀ (s : State) (chunk : Bytes), s.busy ≠ .idle → exec (.rsmFeed chunk) s = .refused .concurrentFeed) ∧
  (∀ s : State, s.busy = .feed → exec .rsmClear s = .refused .concurrentFeed)

/-- RSM.CLEAR empties the buffer and clears `ovf`, as in a new instance, delivers nothing and changes nothing else
(40_reassembler.md section 2: the spec's decision D24). -/
def Obligations.ClearLeavesResetBuffer : Prop :=
  ∀ s : State, s.busy ≠ .feed →
    exec .rsmClear s =
      .next { s with buf := (State.create s.params).buf, ovf := (State.create s.params).ovf } ∧
    (State.create s.params).buf = [] ∧ (State.create s.params).ovf = false

/-- RSM.STATUS delivers the status word and changes nothing: EMPTY exactly when the buffer is empty, the buffer's length
and `ovf` (40_reassembler.md section 3: the spec's decision D1). -/
def Obligations.StatusReportsBufferAndFlag : Prop :=
  ∀ s : State, ∃ w : StatusWord,
    exec .rsmStatus s = .next { s with out := s.out ++ [.status w] } ∧
    (w.rsmState = .empty ↔ s.buf = []) ∧ (w.rsmState = .accumulating ↔ s.buf ≠ []) ∧
    w.bufLen = s.buf.length ∧ w.ovf = s.ovf

/-- Every frame a feed emits, from any buffer, has at least 6 bytes, opens with the start marker, closes with the end
marker, and has no end marker from offset 4 before that (40_reassembler.md section 1, derived there from the algorithm). -/
def Obligations.EmittedFramesAreDelimited : Prop :=
  ∀ (s t : State) (chunk : Bytes) (fs : List Frame),
    exec (.rsmFeed chunk) s = .next t → t.out = s.out ++ [.frames fs] → ∀ f ∈ fs, Delimitable f

/-- After a feed that did not overflow the buffer satisfies its invariant, whatever it held before
(40_reassembler.md section 1, derived there from the algorithm). -/
def Obligations.FeedEstablishesBufferInvariant : Prop :=
  ∀ (s t : State) (chunk : Bytes), exec (.rsmFeed chunk) s = .next t → t.ovf = false → BufferInvariant t.buf

/-- A feed emits at most one frame for every six bytes it had, less those it keeps (40_reassembler.md section 1, derived
there from the algorithm). -/
def Obligations.FeedEmitsAtMostOneFramePerSixBytes : Prop :=
  ∀ (s t : State) (chunk : Bytes) (fs : List Frame),
    exec (.rsmFeed chunk) s = .next t → t.out = s.out ++ [.frames fs] →
    6 * fs.length + t.buf.length ≤ s.buf.length + chunk.length

/-- Over any sequence of feeds every byte is exactly one of dropped, part of one emitted frame, or still in the buffer, in
stream order: what was there and what was fed is the dropped bytes and the frames in turn, a dropped tail, and the
leftover (40_reassembler.md section 1, derived there from the algorithm). -/
def Obligations.FeedsConserveEveryByte : Prop :=
  ∀ (s u : State) (chunks : List Bytes) (fs : List Frame), FeedRun s chunks fs u →
    ∃ (drops : List Bytes) (tail : Bytes), drops.length = fs.length ∧
      s.buf ++ chunks.flatten = (List.zipWith (· ++ ·) drops fs).flatten ++ tail ++ u.buf

/-- Cutting a chunk in two changes neither the frames nor the leftover, but for the one exception: the first part leaves
the buffer empty, ends in `78`, and the second begins with `78` (40_reassembler.md section 1: the spec's decision D4). -/
def Obligations.ChunkCutsDoNotMatter : Prop :=
  ∀ (s t u : State) (a b : Bytes) (fs gs : List Frame),
    CanFeed s (a ++ b) →
    exec (.rsmFeed a) s = .next t → t.out = s.out ++ [.frames fs] →
    exec (.rsmFeed b) t = .next u → u.out = t.out ++ [.frames gs] →
    ¬ (t.buf = [] ∧ (s.buf ++ a).getLast? = some 0x78 ∧ b.head? = some 0x78) →
    exec (.rsmFeed (a ++ b)) s = .next { u with out := s.out ++ [.frames (fs ++ gs)] }

/-- The exception: on an empty buffer a chunk that is the single byte `78` leaves nothing, so a frame cut after its first
byte is fed without it (70_reset_and_hazards.md section 2, derived there; the spec's decision D4). -/
def Obligations.LoneStartByteIsLost : Prop :=
  ∀ s : State, s.buf = [] → CanFeed s [0x78] → exec (.rsmFeed [0x78]) s = .next { s with out := s.out ++ [.frames []] }

/-- Delimitable frames with garbage before, between and after them, fed in one chunk to an empty buffer, come out whole
and in order and leave the buffer empty (40_reassembler.md section 1, derived there from the algorithm). -/
def Obligations.FramesAmongGarbageComeOutInOrder : Prop :=
  ∀ (s : State) (parts : List (Bytes × Frame)) (last : Bytes),
    s.buf = [] → (∀ p ∈ parts, Garbage p.1 ∧ Delimitable p.2) → Garbage last →
    CanFeed s ((parts.flatMap fun p => p.1 ++ p.2) ++ last) →
    exec (.rsmFeed ((parts.flatMap fun p => p.1 ++ p.2) ++ last)) s =
      .next { s with out := s.out ++ [.frames (parts.map (·.2))] }

/-- An empty chunk fed between operations emits nothing and changes nothing (20_memory.md section 6: the spec's decision
D34). -/
def Obligations.EmptyChunkChangesNothing : Prop :=
  ∀ s : State, Inv s → s.ovf = false → exec (.rsmFeed []) s = .next { s with out := s.out ++ [.frames []] }

/-! The frame of the instructions, and where they are refused. -/

/-- No instruction but RSM.FEED and RSM.CLEAR changes anything: it delivers one result, and the FrameBuffer, `ovf`, the
parameters and the rest are as before (20_memory.md section 3; 10_state.md section 1). -/
def Obligations.OtherUnitsOnlyDeliverOneResult : Prop :=
  ∀ (i : Instr) (s t : State), exec i s = .next t → (∀ chunk, i ≠ .rsmFeed chunk) → i ≠ .rsmClear →
    ∃ r : Result, t = { s with out := s.out ++ [r] }

/-- RSM.FEED and RSM.CLEAR change only `buf`, `ovf` and, RSM.FEED, the output port; RSM.FEED never clears `ovf`
(40_reassembler.md sections 1 and 2). -/
def Obligations.FeedAndClearChangeOnlyTheBuffer : Prop :=
  (∀ (chunk : Bytes) (s t : State), exec (.rsmFeed chunk) s = .next t →
    (∃ (buf : Bytes) (fs : List Frame), t = { s with buf := buf, out := s.out ++ [.frames fs] }) ∨
    t = { s with ovf := true, out := s.out ++ [.overflow] }) ∧
  (∀ s t : State, exec .rsmClear s = .next t → t = { s with buf := [], ovf := false })

/-- An instruction is refused exactly where `Refuses` says, with that reason, and completes everywhere else. The conditions
are the spec's decisions D2, D8, D21 and D25, stated in 10_state.md section 1, 20_memory.md section 5, 40_reassembler.md
sections 1 and 2, 42_xor_checksum.md and 44_ack_assembler.md. The model's own are: `ConcurrentFeed` as the reason where an
overlap meets `ovf = 1` (log entry 11), an RSM.FEED that overflows completes (log entry 6), and the rows that are frames
complete (log entries 7 and 8). -/
def Obligations.RefusalsAreTheSpecsAndAllElseCompletes : Prop :=
  ∀ (i : Instr) (s : State),
    (∀ r, exec i s = .refused r ↔ Refuses i s r) ∧ ((∀ r, ¬ Refuses i s r) → ∃ t, exec i s = .next t)

/-! U2 CRC. -/

/-- CRC.STEP: the byte enters the low 8 bits, then eight iterations, each a shift toward bit 0 with `0x8408` XORed in
when the shifted-out bit is 1; nothing else changes (41_crc16_x25.md; the shift direction and the byte's entry are the
spec's decision D26). -/
def Obligations.CrcStepShiftsOutEightBits : Prop :=
  ∀ (s : State) (reg : BitVec 16) (b : Byte), ∃ x : Nat → BitVec 16,
    (x 0).toNat = reg.toNat ^^^ b.toNat ∧
    (∀ k, k < 8 → (x (k + 1)).toNat =
      if (x k).toNat % 2 = 1 then ((x k).toNat / 2) ^^^ 0x8408 else (x k).toNat / 2) ∧
    exec (.crcStep reg b) s = .next { s with out := s.out ++ [.crcReg (x 8)] }

/-- CRC16 starts from `0xFFFF`, applies CRC.STEP to the bytes in order, complements the register, and delivers the
result as two bytes, high byte first (R151, R152). -/
def Obligations.Crc16ChainsCrcSteps : Prop :=
  ∀ (s : State) (m : Bytes), ∃ (reg : Nat → BitVec 16) (hi lo : Byte),
    reg 0 = 0xFFFF ∧
    (∀ (k : Nat) (b : Byte), m[k]? = some b →
      exec (.crcStep (reg k) b) s = .next { s with out := s.out ++ [.crcReg (reg (k + 1))] }) ∧
    (~~~ (reg m.length)).toNat = hi.toNat * 256 + lo.toNat ∧
    exec (.crc16 m) s = .next { s with out := s.out ++ [.crc (~~~ (reg m.length)) [hi, lo]] }

/-- For a fixed byte CRC.STEP is a bijection on the register (41_crc16_x25.md, derived there). -/
def Obligations.CrcStepIsABijection : Prop :=
  ∀ (s : State) (b : Byte) (v : BitVec 16), ∃! reg : BitVec 16,
    exec (.crcStep reg b) s = .next { s with out := s.out ++ [.crcReg v] }

/-! U3 XORV. -/

/-- XOR.SUM of a range inside the sequence: each bit of the result is the parity of that bit over the bytes of
`[lo, hi)`, so the empty range gives zero; nothing else changes (42_xor_checksum.md; the empty range is the spec's
decision D8). -/
def Obligations.XorSumIsTheParityOfEachBit : Prop :=
  ∀ (s : State) (src : Bytes) (lo hi : Nat), lo ≤ hi → hi ≤ src.length → ∃ acc : Byte,
    exec (.xorSum src lo hi) s = .next { s with out := s.out ++ [.xorByte acc] } ∧
    ∀ j, j < 8 → (acc.getLsbD j = true ↔
      ((src.drop lo).take (hi - lo)).countP (fun b => b.getLsbD j) % 2 = 1)

/-- XOR.VERIFY of at least 3 bytes: `expected` is the byte three from the end, `actual` is the XOR.SUM from `XOR_FROM`
(2, 3 or 4) up to it, zero where that span would start after it, and `valid` says whether they are equal; nothing else
changes (42_xor_checksum.md; the byte's place is the spec's decision D5, the roles D7, the span's start D6). -/
def Obligations.XorVerifyComparesCarriedAndComputed : Prop :=
  ∀ (s : State) (f : Bytes) (c start : Nat), f.length = c + 3 →
    (s.params.xorFrom = .lengthByte → start = 2) → (s.params.xorFrom = .messageType → start = 3) →
    (s.params.xorFrom = .body → start = 4) →
    ∃ (expected actual : Byte) (valid : Bool),
      exec (.xorVerify f) s = .next { s with out := s.out ++ [.chk ⟨expected, actual, valid⟩] } ∧
      f[c]? = some expected ∧
      (start ≤ c → exec (.xorSum f start c) s = .next { s with out := s.out ++ [.xorByte actual] }) ∧
      (c < start → actual = 0) ∧
      (valid = true ↔ expected = actual)

/-- XOR.SUM outside the sequence and XOR.VERIFY of fewer than 3 bytes are refused, for `BadRange` and `NotAFrame`
(42_xor_checksum.md: the spec's decision D8). -/
def Obligations.XorOutsideItsDomainIsRefused : Prop :=
  (∀ (s : State) (src : Bytes) (lo hi : Nat), hi < lo ∨ src.length < hi →
    exec (.xorSum src lo hi) s = .refused .badRange) ∧
  (∀ (s : State) (f : Bytes), f.length < 3 → exec (.xorVerify f) s = .refused .notAFrame)

/-! U4 FEXT: readers and field decoders. -/

/-- RD.U8 delivers the byte at the offset, or `OutOfRangeError` when there is none; nothing else changes
(43_field_extractor.md section 1: the spec's decision D13). -/
def Obligations.ReadU8DeliversTheByteOrError : Prop :=
  ∀ (s : State) (src : Bytes) (off : Nat),
    (∀ b, src[off]? = some b → exec (.rdU8 src off) s = .next { s with out := s.out ++ [.u8 b] }) ∧
    (src.length < off + 1 → exec (.rdU8 src off) s = .next { s with out := s.out ++ [.outOfRange] })

/-- RD.U16BE delivers the big-endian value of the two bytes at the offset, the first the more significant, or
`OutOfRangeError` when `off + 2 > len`; nothing else changes (R186). -/
def Obligations.ReadU16DeliversBigEndianOrError : Prop :=
  ∀ (s : State) (src : Bytes) (off : Nat),
    (off + 2 ≤ src.length → ∃ (b0 b1 : Byte) (v : BitVec 16),
      src[off]? = some b0 ∧ src[off + 1]? = some b1 ∧ v.toNat = b0.toNat * 256 + b1.toNat ∧
      exec (.rdU16be src off) s = .next { s with out := s.out ++ [.u16 v] }) ∧
    (src.length < off + 2 → exec (.rdU16be src off) s = .next { s with out := s.out ++ [.outOfRange] })

/-- RD.U32BE delivers the big-endian value of the four bytes at the offset, or `OutOfRangeError` when `off + 4 > len`;
nothing else changes (R187). -/
def Obligations.ReadU32DeliversBigEndianOrError : Prop :=
  ∀ (s : State) (src : Bytes) (off : Nat),
    (off + 4 ≤ src.length → ∃ (b0 b1 b2 b3 : Byte) (v : BitVec 32),
      src[off]? = some b0 ∧ src[off + 1]? = some b1 ∧ src[off + 2]? = some b2 ∧ src[off + 3]? = some b3 ∧
      v.toNat = b0.toNat * 2 ^ 24 + b1.toNat * 2 ^ 16 + b2.toNat * 2 ^ 8 + b3.toNat ∧
      exec (.rdU32be src off) s = .next { s with out := s.out ++ [.u32 v] }) ∧
    (src.length < off + 4 → exec (.rdU32be src off) s = .next { s with out := s.out ++ [.outOfRange] })

/-- RD.BYTES delivers exactly the `n` bytes from the offset, or `OutOfRangeError` and no byte when `off + n > len`;
nothing else changes (43_field_extractor.md section 1: the spec's decision D13). -/
def Obligations.ReadBytesIsAllOrNothing : Prop :=
  ∀ (s : State) (src : Bytes) (off n : Nat),
    (off + n ≤ src.length → ∃ bs : Bytes,
      bs.length = n ∧ (∀ k, k < n → bs[k]? = src[off + k]?) ∧
      exec (.rdBytes src off n) s = .next { s with out := s.out ++ [.bytes bs] }) ∧
    (src.length < off + n → exec (.rdBytes src off n) s = .next { s with out := s.out ++ [.outOfRange] })

/-- ID.DECODE delivers 16 digits, byte `k` giving digits `2k` and `2k + 1`: its low nibble then its high nibble under
`LOW_FIRST`, the reverse under `HIGH_FIRST`; `id_nondecimal` says whether some digit is above 9; nothing else changes
(43_field_extractor.md section 2: the spec's decisions D9 and D10). -/
def Obligations.IdDecodeSplitsEachByteIntoDigits : Prop :=
  ∀ (s : State) (b0 b1 b2 b3 b4 b5 b6 b7 : Byte), ∃ d : IdDigits,
    exec (.idDecode ⟨b0, b1, b2, b3, b4, b5, b6, b7⟩) s = .next { s with out := s.out ++ [.digits d] } ∧
    d.digits.length = 16 ∧
    (∀ (k : Nat) (b : Byte), [b0, b1, b2, b3, b4, b5, b6, b7][k]? = some b → ∃ x y : BitVec 4,
      d.digits[2 * k]? = some x ∧ d.digits[2 * k + 1]? = some y ∧
      (s.params.idDigitOrder = .lowFirst → x.toNat = b.toNat % 16 ∧ y.toNat = b.toNat / 16) ∧
      (s.params.idDigitOrder = .highFirst → x.toNat = b.toNat / 16 ∧ y.toNat = b.toNat % 16)) ∧
    (d.nondecimal = true ↔ ∃ x ∈ d.digits, 9 < x.toNat)

/-- STATUS.DECODE: bit 0 is south, bit 1 west, bit 2 unfixed, bits 7..4 the satellite count; every byte is accepted and
nothing else changes (R198). -/
def Obligations.StatusDecodeReadsItsBits : Prop :=
  ∀ (s : State) (st : Byte), ∃ w : StatusBits,
    exec (.statusDecode st) s = .next { s with out := s.out ++ [.statusBits w] } ∧
    (w.latSouth = true ↔ st.toNat % 2 = 1) ∧ (w.lonWest = true ↔ st.toNat / 2 % 2 = 1) ∧
    (w.unfixed = true ↔ st.toNat / 4 % 2 = 1) ∧ w.sats.toNat = st.toNat / 16

/-- COORD.CONVERT: the sign and the letter follow the hemisphere bit, the magnitude is the raw value, `deg` is exactly
`raw / 1800000` with the sign, and `udeg` is the nearest whole number of millionths of a degree, less than half a
millionth off; nothing else changes (43_field_extractor.md section 2: the output's form is the spec's decision D18). -/
def Obligations.CoordConvertRoundsToNearestMicrodegree : Prop :=
  ∀ (s : State) (raw : BitVec 32) (neg : Bool) (axis : Axis), ∃ c : Coord,
    exec (.coordConvert raw neg axis) s = .next { s with out := s.out ++ [.coord c] } ∧
    c.sign = neg ∧ c.mag = raw ∧
    (axis = .lat → neg = false → c.letter = .n) ∧ (axis = .lat → neg = true → c.letter = .s) ∧
    (axis = .lon → neg = false → c.letter = .e) ∧ (axis = .lon → neg = true → c.letter = .w) ∧
    (neg = false → c.deg * 1800000 = (raw.toNat : Rat)) ∧ (neg = true → c.deg * 1800000 = -(raw.toNat : Rat)) ∧
    c.udeg.toNat = (10 * raw.toNat + 9) / 18 ∧
    18 * c.udeg.toNat < 10 * raw.toNat + 9 ∧ 10 * raw.toNat < 18 * c.udeg.toNat + 9

/-! U4 FEXT: whole frames. -/

/-- FX.CLASSIFY: REJECTED without the start marker or with fewer than 4 bytes, else LOCFAM, HEARTBEAT or UNKNOWN by the
byte at offset 3; nothing else changes (R190). -/
def Obligations.ClassifyDispatchesOnTheMessageType : Prop :=
  ∀ (s : State) (f : Bytes),
    ((f.length < 4 ∨ ¬ StartAt f 0) → exec (.fxClassify f) s = .next { s with out := s.out ++ [.cls .rejected] }) ∧
    (∀ t : Byte, StartAt f 0 → f[3]? = some t → exec (.fxClassify f) s = .next { s with out := s.out ++
      [.cls (if t = 0x01 then .locfam else if t = 0x04 then .heartbeat else .unknown)] })

/-- FX.EXTRACT of a sequence without a message type: no field has a value; `InvalidStartMarker` without the start marker,
`OutOfRangeError` with it and fewer than 4 bytes (43_field_extractor.md section 3: the short sequences are the spec's
decision D29). -/
def Obligations.ExtractRejectsWithoutFields : Prop :=
  ∀ (s : State) (f : Bytes), (f.length < 4 ∨ ¬ StartAt f 0) → ∃ r : Rec,
    exec (.fxExtract f) s = .next { s with out := s.out ++ [.record r] } ∧
    r.cls = .rejected ∧ r.flen = f.length ∧ r.gpsReady = false ∧ r.vmask = [] ∧
    (¬ StartAt f 0 → r.err = .invalidStartMarker) ∧ (StartAt f 0 → r.err = .outOfRange)

/-- FX.EXTRACT of a location-family frame by total length: the error, `gps_ready` and the validity mask
(43_field_extractor.md section 3; the spec's decisions D14 and D16). -/
def Obligations.LocationOutcomeByLength : Prop :=
  ∀ (s : State) (f : Bytes), StartAt f 0 → f[3]? = some 0x01 → ∃ r : Rec,
    exec (.fxExtract f) s = .next { s with out := s.out ++ [.record r] } ∧
    r.cls = .locfam ∧ r.flen = f.length ∧
    (f.length < 12 → r.err = .outOfRange ∧ r.gpsReady = false ∧ r.vmask = [.hdr]) ∧
    (12 ≤ f.length → f.length < 14 → r.err = .outOfRange ∧ r.gpsReady = false ∧ r.vmask = [.hdr, .id]) ∧
    (14 ≤ f.length → f.length < 28 → r.err = .noError ∧ r.gpsReady = false ∧ r.vmask = [.hdr, .id, .seq]) ∧
    (28 ≤ f.length → f.length < 34 → r.err = .outOfRange ∧ r.gpsReady = true ∧
      r.vmask = [.hdr, .id, .seq, .lat, .lon, .alt, .spd, .crs]) ∧
    (f.length = 34 → r.err = .outOfRange ∧ r.gpsReady = true ∧
      r.vmask = [.hdr, .id, .seq, .lat, .lon, .alt, .spd, .crs, .ts]) ∧
    (35 ≤ f.length → r.err = .noError ∧ r.gpsReady = true ∧
      r.vmask = [.hdr, .id, .seq, .lat, .lon, .alt, .spd, .crs, .ts, .st])

/-- FX.EXTRACT of a location-family frame: each field that is long enough to be read is what the reader delivers at the
field's offset, and the decoded fields are what the decoders deliver for it (43_field_extractor.md section 3; the
timestamp's form is the spec's decision D17). -/
def Obligations.LocationFieldsAreTheReadsAtTheirOffsets : Prop :=
  ∀ (s : State) (f : Bytes), StartAt f 0 → f[3]? = some 0x01 → ∃ r : Rec,
    exec (.fxExtract f) s = .next { s with out := s.out ++ [.record r] } ∧
    (∃ l, f[2]? = some l ∧ r.hdr = some ⟨l, 0x01⟩) ∧
    (12 ≤ f.length → ∃ (b : Bytes8) (d : IdDigits), r.ident = some ⟨bytes8List b, d⟩ ∧
      exec (.rdBytes f 4 8) s = .next { s with out := s.out ++ [.bytes (bytes8List b)] } ∧
      exec (.idDecode b) s = .next { s with out := s.out ++ [.digits d] }) ∧
    (14 ≤ f.length → ∃ v, r.seq = some v ∧ exec (.rdU16be f 12) s = .next { s with out := s.out ++ [.u16 v] }) ∧
    (28 ≤ f.length → ∃ lat lon alt spd course,
      r.latRaw = some lat ∧ exec (.rdU32be f 14) s = .next { s with out := s.out ++ [.u32 lat] } ∧
      r.lonRaw = some lon ∧ exec (.rdU32be f 18) s = .next { s with out := s.out ++ [.u32 lon] } ∧
      r.alt = some alt ∧ exec (.rdU16be f 22) s = .next { s with out := s.out ++ [.u16 alt] } ∧
      r.spdRaw = some spd ∧ exec (.rdU16be f 24) s = .next { s with out := s.out ++ [.u16 spd] } ∧
      r.course = some course ∧ exec (.rdU16be f 26) s = .next { s with out := s.out ++ [.u16 course] }) ∧
    (34 ≤ f.length → ∃ (yy mo dd hh mi ss : Byte) (year : BitVec 12),
      r.ts = some ⟨yy, mo, dd, hh, mi, ss, year⟩ ∧ year.toNat = 2000 + yy.toNat ∧
      exec (.rdBytes f 28 6) s = .next { s with out := s.out ++ [.bytes [yy, mo, dd, hh, mi, ss]] }) ∧
    (35 ≤ f.length → ∃ (st : StFields) (lat lon : BitVec 32) (clat clon : Coord),
      r.st = some st ∧ r.latRaw = some lat ∧ r.lonRaw = some lon ∧
      exec (.rdU8 f 34) s = .next { s with out := s.out ++ [.u8 st.status] } ∧
      exec (.statusDecode st.status) s = .next { s with out := s.out ++ [.statusBits st.bits] } ∧
      exec (.coordConvert lat st.bits.latSouth .lat) s = .next { s with out := s.out ++ [.coord clat] } ∧
      exec (.coordConvert lon st.bits.lonWest .lon) s = .next { s with out := s.out ++ [.coord clon] } ∧
      st.latUdeg = clat.udeg ∧ st.latLetter = clat.letter ∧ st.lonUdeg = clon.udeg ∧ st.lonLetter = clon.letter)

/-- FX.EXTRACT of a heartbeat: the header and, from 12 bytes on, the identifier with its digits; a shorter one gives
`OutOfRangeError`; nothing else of the frame is read (43_field_extractor.md section 3; the spec's decision D16). -/
def Obligations.HeartbeatGivesIdentifierOnly : Prop :=
  ∀ (s : State) (f : Bytes), StartAt f 0 → f[3]? = some 0x04 → ∃ r : Rec,
    exec (.fxExtract f) s = .next { s with out := s.out ++ [.record r] } ∧
    r.cls = .heartbeat ∧ r.flen = f.length ∧ r.gpsReady = false ∧
    (∃ l, f[2]? = some l ∧ r.hdr = some ⟨l, 0x04⟩) ∧
    (f.length < 12 → r.err = .outOfRange ∧ r.vmask = [.hdr]) ∧
    (12 ≤ f.length → r.err = .noError ∧ r.vmask = [.hdr, .id] ∧
      ∃ (b : Bytes8) (d : IdDigits), r.ident = some ⟨bytes8List b, d⟩ ∧
        exec (.rdBytes f 4 8) s = .next { s with out := s.out ++ [.bytes (bytes8List b)] } ∧
        exec (.idDecode b) s = .next { s with out := s.out ++ [.digits d] })

/-- FX.EXTRACT of any other message type: class UNKNOWN, no error, the type byte delivered, only the header valid
(R197); the total length is delivered and `gps_ready` is 0. -/
def Obligations.UnknownTypeIsNoError : Prop :=
  ∀ (s : State) (f : Bytes) (t : Byte), StartAt f 0 → f[3]? = some t → t ≠ 0x01 → t ≠ 0x04 → ∃ (r : Rec) (l : Byte),
    exec (.fxExtract f) s = .next { s with out := s.out ++ [.record r] } ∧
    r.cls = .unknown ∧ r.err = .noError ∧ r.flen = f.length ∧ r.gpsReady = false ∧ r.vmask = [.hdr] ∧
    f[2]? = some l ∧ r.hdr = some ⟨l, t⟩

/-- FX.EXTRACT is total and pure: on every sequence, in every state, it completes with one REC that depends on the
sequence and the parameters alone (43_field_extractor.md section 3, derived there). -/
def Obligations.ExtractIsTotalAndPure : Prop :=
  ∀ (f : Bytes) (s s' : State), s.params = s'.params → ∃ r : Rec,
    exec (.fxExtract f) s = .next { s with out := s.out ++ [.record r] } ∧
    exec (.fxExtract f) s' = .next { s' with out := s'.out ++ [.record r] }

/-- In every REC the valid groups are a prefix of the ten in order, and its error is `NONE`, `OutOfRangeError` or
`InvalidStartMarker` (10_state.md section 6, 60_exceptions.md section 1; the bundle's shape is the spec's decision D12). -/
def Obligations.RecordGroupsAreAPrefix : Prop :=
  ∀ (f : Bytes) (s : State) (r : Rec), exec (.fxExtract f) s = .next { s with out := s.out ++ [.record r] } →
    r.vmask <+: [.hdr, .id, .seq, .lat, .lon, .alt, .spd, .crs, .ts, .st] ∧
    (r.err = .noError ∨ r.err = .outOfRange ∨ r.err = .invalidStartMarker) ∧
    (r.gpsReady = true → r.cls = .locfam ∧ 28 ≤ r.flen)

/-- An inbound frame of each class completes with exactly the REC that FX.EXTRACT delivers for its bytes
(30_encoding.md sections 1 and 5; that a class row's effect is its extraction is the model's, log entry 7). -/
def Obligations.FrameClassesDeliverTheirExtraction : Prop :=
  (∀ (s : State) (l : Byte) (rest : Bytes), ∃ r : Rec,
    exec (.frameLocfam l rest) s = .next { s with out := s.out ++ [.record r] } ∧
    exec (.fxExtract (0x78 :: 0x78 :: l :: 0x01 :: rest)) s = .next { s with out := s.out ++ [.record r] } ∧
    r.cls = .locfam) ∧
  (∀ (s : State) (l : Byte) (rest : Bytes), ∃ r : Rec,
    exec (.frameHeartbeat l rest) s = .next { s with out := s.out ++ [.record r] } ∧
    exec (.fxExtract (0x78 :: 0x78 :: l :: 0x04 :: rest)) s = .next { s with out := s.out ++ [.record r] } ∧
    r.cls = .heartbeat) ∧
  (∀ (s : State) (l t : Byte) (rest : Bytes), t ≠ 0x01 → t ≠ 0x04 → ∃ r : Rec,
    exec (.frameUnknown l t rest) s = .next { s with out := s.out ++ [.record r] } ∧
    exec (.fxExtract (0x78 :: 0x78 :: l :: t :: rest)) s = .next { s with out := s.out ++ [.record r] } ∧
    r.cls = .unknown) ∧
  (∀ (s : State) (f : Bytes), (f.length < 4 ∨ ¬ StartAt f 0) → ∃ r : Rec,
    exec (.frameRejected f) s = .next { s with out := s.out ++ [.record r] } ∧
    exec (.fxExtract f) s = .next { s with out := s.out ++ [.record r] } ∧
    r.cls = .rejected)

/-! U5 ACK. -/

/-- ACK.BUILD delivers the ten bytes of the acknowledgement frame: start marker, `05`, the type, the serial, the CRC16 of
those four bytes high byte first, end marker; nothing else changes (R88). -/
def Obligations.AckBuildLaysOutTheFrame : Prop :=
  ∀ (s : State) (t s0 s1 : Byte), ∃ (crc : BitVec 16) (hi lo : Byte),
    exec (.crc16 [0x05, t, s0, s1]) s = .next { s with out := s.out ++ [.crc crc [hi, lo]] } ∧
    crc.toNat = hi.toNat * 256 + lo.toNat ∧
    exec (.ackBuild t s0 s1) s =
      .next { s with out := s.out ++ [.ack [0x78, 0x78, 0x05, t, s0, s1, hi, lo, 0x0d, 0x0a]] }

/-- ACK.FROMFRAME of at least 14 bytes is ACK.BUILD of the type at offset 3 and the serial at offsets 12 and 13; of fewer
it is refused (44_ack_assembler.md: the spec's decisions D20 and D21). -/
def Obligations.AckFromFrameEchoesTypeAndSerial : Prop :=
  (∀ (s : State) (f : Bytes), 14 ≤ f.length → ∃ (t s0 s1 : Byte) (ack : Bytes),
    f[3]? = some t ∧ f[12]? = some s0 ∧ f[13]? = some s1 ∧
    exec (.ackFromframe f) s = .next { s with out := s.out ++ [.ack ack] } ∧
    exec (.ackBuild t s0 s1) s = .next { s with out := s.out ++ [.ack ack] }) ∧
  (∀ (s : State) (f : Bytes), f.length < 14 → exec (.ackFromframe f) s = .refused .ackShortFrame)

/-- FRAME.ACK delivers the acknowledgement ACK.BUILD makes of its type and serial, whatever its own CRC field holds; a
word whose CRC field is the CRC of its body is delivered as it was put in (30_encoding.md section 2; the row's effect
is the model's, log entry 8). -/
def Obligations.FrameAckDeliversTheAcknowledgement : Prop :=
  (∀ (s : State) (t s0 s1 : Byte) (c : BitVec 16), ∃ ack : Bytes,
    exec (.frameAck t s0 s1 c) s = .next { s with out := s.out ++ [.ack ack] } ∧
    exec (.ackBuild t s0 s1) s = .next { s with out := s.out ++ [.ack ack] }) ∧
  (∀ (s : State) (t s0 s1 : Byte) (c : BitVec 16) (two : Bytes),
    exec (.crc16 [0x05, t, s0, s1]) s = .next { s with out := s.out ++ [.crc c two] } →
    exec (.frameAck t s0 s1 c) s = .next { s with out := s.out ++ [.ack (encode (.frameAck t s0 s1 c)).2] })

/-! Runs, codes and conditions, and bytes that are no instruction. -/

/-- A run from a state with `ovf = 0` has faulted, that is `ovf` became 1 in it, exactly when it delivered an overflow,
also when an RSM.CLEAR has cleared `ovf` since; so the result of a run that began with nothing delivered says whether it
faulted (70_reset_and_hazards.md section 3: the spec's decision D1; the fault as a next state that delivers
`Result.overflow` is the model's, log entry 6). -/
def Obligations.RunFaultsExactlyWhenItOverflows : Prop :=
  ∀ (k : Nat) (s t : State), s.ovf = false → Sys2Proof.core.run k s = .next t →
    (∃ rs : List Result, t.out = s.out ++ rs ∧ (RunFaulted k s ↔ Result.overflow ∈ rs)) ∧
    (s.out = [] → ((runResult t).faulted = true ↔ RunFaulted k s))

/-- From a state that meets the invariant the safe runs are those in which no step is refused and that have not faulted:
a run that overflowed is not safe, whatever was cleared afterwards (70_reset_and_hazards.md section 3, 20_memory.md
section 6: the spec's decisions D1 and D2). -/
def Obligations.SafeRunsAreTheUnfaultedOnes : Prop :=
  ∀ (k : Nat) (s : State), Inv s →
    (SafeRun k s ↔ (∃ t, Sys2Proof.core.run k s = .next t) ∧ ¬ RunFaulted k s)

/-- The numbers the spec assigns: the conditions 0 to 14 (60_exceptions.md section 1: decision D22), the classes 0 to 3
(10_state.md section 6), EMPTY 0 and ACCUMULATING 1 (10_state.md section 3), and the letter bit, which is the hemisphere
bit that COORD.CONVERT was given (43_field_extractor.md section 2). -/
def Obligations.CodesAreTheSpecsNumbers : Prop :=
  (ErrCode.code .noError = 0 ∧ ErrCode.code .outOfRange = 1 ∧ ErrCode.code .invalidStartMarker = 2 ∧
    ErrCode.code .checksumMismatch = 3 ∧ ErrCode.code .unknownMessageType = 4 ∧ ErrCode.code .gpsNotReady = 5 ∧
    ErrCode.code .frameIncomplete = 6 ∧ ErrCode.code .malformedHex = 7 ∧ ErrCode.code .bufferOverflow = 8 ∧
    ErrCode.code .concurrentFeed = 9 ∧ ErrCode.code .badRange = 10 ∧ ErrCode.code .notAFrame = 11 ∧
    ErrCode.code .ackShortFrame = 12 ∧ ErrCode.code .reservedOp = 13 ∧ ErrCode.code .feedAfterOverflow = 14) ∧
  ((clsCode .rejected).toNat = 0 ∧ (clsCode .locfam).toNat = 1 ∧ (clsCode .heartbeat).toNat = 2 ∧
    (clsCode .unknown).toNat = 3) ∧
  (RsmState.code .empty = false ∧ RsmState.code .accumulating = true) ∧
  (Letter.code .n = false ∧ Letter.code .s = true ∧ Letter.code .e = false ∧ Letter.code .w = true) ∧
  (∀ (s : State) (raw : BitVec 32) (neg : Bool) (axis : Axis), ∃ c : Coord,
    exec (.coordConvert raw neg axis) s = .next { s with out := s.out ++ [.coord c] } ∧ c.letter.code = neg)

/-- Every refusal of an instruction reports a condition of the taxonomy with a code from 9 to 14, each its own, and the
step's refusal of a reserved operation number does too; the model's own refusals of bytes that are no command report none
(60_exceptions.md section 1: decisions D22 and D25; the three last are log entry 3's). -/
def Obligations.RefusalsReportTheirCondition : Prop :=
  (∀ (i : Instr) (s : State) (r : Refusal), exec i s = .refused r →
    ∃ e : ErrCode, r.condition = some e ∧ 9 ≤ e.code ∧ e.code ≤ 14) ∧
  Refusal.condition .concurrentFeed = some .concurrentFeed ∧ Refusal.condition .badRange = some .badRange ∧
  Refusal.condition .notAFrame = some .notAFrame ∧ Refusal.condition .ackShortFrame = some .ackShortFrame ∧
  Refusal.condition .reservedOp = some .reservedOp ∧ Refusal.condition .feedAfterOverflow = some .feedAfterOverflow ∧
  Refusal.condition .noOperation = none ∧ Refusal.condition .badOperands = none ∧
  Refusal.condition .notAckPattern = none

/-- What each kind of result reports: `BufferOverflow` for the overflow, `OutOfRangeError` for a reader's error, what its
bundle reports for CHK and for REC, `UnknownMessageType` for class UNKNOWN and nothing for another class, and nothing for
every other result; and XOR.VERIFY, which completes either way, reports `ChecksumMismatch` exactly when the carried byte
and the computed one differ, and nothing otherwise (60_exceptions.md section 1, 42_xor_checksum.md; that one function
gives the condition of a result is the model's form). -/
def Obligations.ResultsReportTheirCondition : Prop :=
  Result.condition .overflow = .bufferOverflow ∧ Result.condition .outOfRange = .outOfRange ∧
  (∀ c, Result.condition (.chk c) = c.condition) ∧ (∀ r, Result.condition (.record r) = r.condition) ∧
  (∀ c, Result.condition (.cls c) = if c = .unknown then .unknownMessageType else .noError) ∧
  (∀ fs, Result.condition (.frames fs) = .noError) ∧ (∀ w, Result.condition (.status w) = .noError) ∧
  (∀ v, Result.condition (.crcReg v) = .noError) ∧ (∀ v bs, Result.condition (.crc v bs) = .noError) ∧
  (∀ v, Result.condition (.xorByte v) = .noError) ∧ (∀ v, Result.condition (.u8 v) = .noError) ∧
  (∀ v, Result.condition (.u16 v) = .noError) ∧ (∀ v, Result.condition (.u32 v) = .noError) ∧
  (∀ bs, Result.condition (.bytes bs) = .noError) ∧ (∀ d, Result.condition (.digits d) = .noError) ∧
  (∀ b, Result.condition (.statusBits b) = .noError) ∧ (∀ c, Result.condition (.coord c) = .noError) ∧
  (∀ bs, Result.condition (.ack bs) = .noError) ∧
  (∀ (s : State) (f : Bytes), 3 ≤ f.length → ∃ c : Chk,
    exec (.xorVerify f) s = .next { s with out := s.out ++ [.chk c] } ∧
    (c.expected ≠ c.actual → c.condition = .checksumMismatch) ∧ (c.expected = c.actual → c.condition = .noError))

/-- What FX.EXTRACT reports of every sequence: `InvalidStartMarker` without the start marker; with it
`OutOfRangeError` below 4 bytes, `UnknownMessageType` for a type that is not known, and for the known types by total
length `OutOfRangeError`, `GpsNotReady` or nothing (60_exceptions.md sections 1 and 2, 43_field_extractor.md section 3:
the spec's decisions D14, D16 and D29; that a frame is reported by one condition is the model's form). -/
def Obligations.ExtractReportsItsCondition : Prop :=
  ∀ (s : State) (f : Bytes), ∃ r : Rec,
    exec (.fxExtract f) s = .next { s with out := s.out ++ [.record r] } ∧
    (¬ StartAt f 0 → r.condition = .invalidStartMarker) ∧
    (StartAt f 0 → f.length < 4 → r.condition = .outOfRange) ∧
    (StartAt f 0 → f[3]? = some 0x01 →
      (f.length < 14 → r.condition = .outOfRange) ∧
      (14 ≤ f.length → f.length < 28 → r.condition = .gpsNotReady) ∧
      (28 ≤ f.length → f.length < 35 → r.condition = .outOfRange) ∧
      (35 ≤ f.length → r.condition = .noError)) ∧
    (StartAt f 0 → f[3]? = some 0x04 →
      (f.length < 12 → r.condition = .outOfRange) ∧ (12 ≤ f.length → r.condition = .noError)) ∧
    (∀ t : Byte, StartAt f 0 → f[3]? = some t → t ≠ 0x01 → t ≠ 0x04 → r.condition = .unknownMessageType)

/-- `FrameIncomplete` after a feed that fits: it holds exactly when the buffer holds a frame that has begun and no end
marker of it, fails exactly when the buffer is empty, and is the `rsm_state` bit that RSM.STATUS then reports
(60_exceptions.md section 1, 40_reassembler.md sections 1 and 3: the spec's decisions D1 and D24). -/
def Obligations.FrameIncompleteIsAccumulating : Prop :=
  ∀ (s : State) (chunk : Bytes), CanFeed s chunk → ∃ (t : State) (w : StatusWord),
    exec (.rsmFeed chunk) s = .next t ∧
    (frameIncomplete t = true ↔ StartAt t.buf 0 ∧ ∀ i, 4 ≤ i → ¬ EndAt t.buf i) ∧
    (frameIncomplete t = false ↔ t.buf = []) ∧
    exec .rsmStatus t = .next { t with out := t.out ++ [.status w] } ∧ w.rsmState.code = frameIncomplete t

/-- Bytes on the input port that are no instruction are refused: an OP5 command without a byte; operand bytes of the wrong
number for a fixed-size operand; a `neg` or `axis` byte that is neither 0 nor 1; fewer natural numbers than the operation
takes (each ends with its first byte below 0x80); an ACK80 command that does not match the 80-bit pattern. Every byte
sequence is a FRAME32 instruction. The pattern is the spec's (30_encoding.md section 2), the layout of operands and the
three names are the model's (log entry 3). -/
def Obligations.BytesOfNoInstructionAreRefused : Prop :=
  ∀ (s : State) (c : Command) (rest : List Command), s.inq = c :: rest →
    (c.fmt = .op5 → c.bytes = [] → step s = .refused .noOperation) ∧
    (∀ (b : Byte) (operands : Bytes), c.fmt = .op5 → c.bytes = b :: operands →
      (b.toNat % 32 ∈ [0x01, 0x02] ∧ operands ≠ []) ∨
      (b.toNat % 32 ∈ [0x04, 0x18] ∧ operands.length ≠ 3) ∨
      (b.toNat % 32 = 0x10 ∧ operands.length ≠ 8) ∨
      (b.toNat % 32 = 0x13 ∧ operands.length ≠ 1) ∨
      (b.toNat % 32 = 0x14 ∧ operands.length ≠ 6) ∨
      (b.toNat % 32 = 0x14 ∧ ∃ x : Byte, (operands[4]? = some x ∨ operands[5]? = some x) ∧ 1 < x.toNat) ∨
      (b.toNat % 32 ∈ [0x0C, 0x0D, 0x0E] ∧ operands.countP (fun x => x.toNat < 128) < 1) ∨
      (b.toNat % 32 ∈ [0x08, 0x0F] ∧ operands.countP (fun x => x.toNat < 128) < 2) →
      step s = .refused .badOperands) ∧
    (c.fmt = .ack80 →
      (∀ t s0 s1 c1 c0 : Byte, c.bytes ≠ [0x78, 0x78, 0x05, t, s0, s1, c1, c0, 0x0d, 0x0a]) →
      step s = .refused .notAckPattern) ∧
    (c.fmt = .frame32 → ∃ i, decode c.fmt c.bytes = .ok i)
end

