-- ==== Sys2Proof/Laws/State.lean ====
section
/-! SUPPORT. One lemma per field per update of State, true by definition, so that no later proof unfolds an update. -/

namespace Sys2Proof.Machine

variable (s : State)

@[simp] theorem deliver_params (r : Result) : (s.deliver r).params = s.params := rfl
@[simp] theorem deliver_buf (r : Result) : (s.deliver r).buf = s.buf := rfl
@[simp] theorem deliver_ovf (r : Result) : (s.deliver r).ovf = s.ovf := rfl
@[simp] theorem deliver_busy (r : Result) : (s.deliver r).busy = s.busy := rfl
@[simp] theorem deliver_inq (r : Result) : (s.deliver r).inq = s.inq := rfl
@[simp] theorem deliver_out (r : Result) : (s.deliver r).out = s.out ++ [r] := rfl

@[simp] theorem setBuf_params (b : Bytes) : (s.setBuf b).params = s.params := rfl
@[simp] theorem setBuf_buf (b : Bytes) : (s.setBuf b).buf = b := rfl
@[simp] theorem setBuf_ovf (b : Bytes) : (s.setBuf b).ovf = s.ovf := rfl
@[simp] theorem setBuf_busy (b : Bytes) : (s.setBuf b).busy = s.busy := rfl
@[simp] theorem setBuf_inq (b : Bytes) : (s.setBuf b).inq = s.inq := rfl
@[simp] theorem setBuf_out (b : Bytes) : (s.setBuf b).out = s.out := rfl

@[simp] theorem takeOverflow_params : (s.takeOverflow).params = s.params := rfl
@[simp] theorem takeOverflow_buf : (s.takeOverflow).buf = s.buf := rfl
@[simp] theorem takeOverflow_ovf : (s.takeOverflow).ovf = true := rfl
@[simp] theorem takeOverflow_busy : (s.takeOverflow).busy = s.busy := rfl
@[simp] theorem takeOverflow_inq : (s.takeOverflow).inq = s.inq := rfl
@[simp] theorem takeOverflow_out : (s.takeOverflow).out = s.out ++ [Result.overflow] := rfl

@[simp] theorem clear_params : (s.clear).params = s.params := rfl
@[simp] theorem clear_buf : (s.clear).buf = [] := rfl
@[simp] theorem clear_ovf : (s.clear).ovf = false := rfl
@[simp] theorem clear_busy : (s.clear).busy = s.busy := rfl
@[simp] theorem clear_inq : (s.clear).inq = s.inq := rfl
@[simp] theorem clear_out : (s.clear).out = s.out := rfl

@[simp] theorem issue_params (c : Command) : (s.issue c).params = s.params := rfl
@[simp] theorem issue_buf (c : Command) : (s.issue c).buf = s.buf := rfl
@[simp] theorem issue_ovf (c : Command) : (s.issue c).ovf = s.ovf := rfl
@[simp] theorem issue_busy (c : Command) : (s.issue c).busy = s.busy := rfl
@[simp] theorem issue_inq (c : Command) : (s.issue c).inq = s.inq ++ [c] := rfl
@[simp] theorem issue_out (c : Command) : (s.issue c).out = s.out := rfl

@[simp] theorem begin_params (c : Command) (rest : List Command) : (s.begin c rest).params = s.params := rfl
@[simp] theorem begin_buf (c : Command) (rest : List Command) : (s.begin c rest).buf = s.buf := rfl
@[simp] theorem begin_ovf (c : Command) (rest : List Command) : (s.begin c rest).ovf = s.ovf := rfl
@[simp] theorem begin_busy (c : Command) (rest : List Command) : (s.begin c rest).busy = c.overlap := rfl
@[simp] theorem begin_inq (c : Command) (rest : List Command) : (s.begin c rest).inq = rest := rfl
@[simp] theorem begin_out (c : Command) (rest : List Command) : (s.begin c rest).out = s.out := rfl

@[simp] theorem finish_params : (s.finish).params = s.params := rfl
@[simp] theorem finish_buf : (s.finish).buf = s.buf := rfl
@[simp] theorem finish_ovf : (s.finish).ovf = s.ovf := rfl
@[simp] theorem finish_busy : (s.finish).busy = .idle := rfl
@[simp] theorem finish_inq : (s.finish).inq = s.inq := rfl
@[simp] theorem finish_out : (s.finish).out = s.out := rfl

@[simp] theorem placeCommand_params (c : Command) : (s.placeCommand c).params = s.params := rfl
@[simp] theorem placeCommand_buf (c : Command) : (s.placeCommand c).buf = s.buf := rfl
@[simp] theorem placeCommand_ovf (c : Command) : (s.placeCommand c).ovf = s.ovf := rfl
@[simp] theorem placeCommand_busy (c : Command) : (s.placeCommand c).busy = s.busy := rfl
@[simp] theorem placeCommand_inq (c : Command) : (s.placeCommand c).inq = c :: s.inq := rfl
@[simp] theorem placeCommand_out (c : Command) : (s.placeCommand c).out = s.out := rfl

@[simp] theorem withFetchWord_params (nbits w : Nat) : (s.withFetchWord nbits w).params = s.params := rfl
@[simp] theorem withFetchWord_buf (nbits w : Nat) : (s.withFetchWord nbits w).buf = s.buf := rfl
@[simp] theorem withFetchWord_ovf (nbits w : Nat) : (s.withFetchWord nbits w).ovf = s.ovf := rfl
@[simp] theorem withFetchWord_busy (nbits w : Nat) : (s.withFetchWord nbits w).busy = s.busy := rfl
@[simp] theorem withFetchWord_inq (nbits w : Nat) : (s.withFetchWord nbits w).inq = tableCommand nbits w :: s.inq := rfl
@[simp] theorem withFetchWord_out (nbits w : Nat) : (s.withFetchWord nbits w).out = s.out := rfl

@[simp] theorem finish_of_idle (h : s.busy = .idle) : s.finish = s := by
  cases s; simp_all [State.finish]

@[simp] theorem create_params (p : Params) : (State.create p).params = p := rfl
@[simp] theorem create_buf (p : Params) : (State.create p).buf = [] := rfl
@[simp] theorem create_ovf (p : Params) : (State.create p).ovf = false := rfl
@[simp] theorem create_busy (p : Params) : (State.create p).busy = .idle := rfl
@[simp] theorem create_inq (p : Params) : (State.create p).inq = [] := rfl
@[simp] theorem create_out (p : Params) : (State.create p).out = [] := rfl
@[simp] theorem reset_params : State.reset.params = Params.default := rfl
@[simp] theorem reset_buf : State.reset.buf = [] := rfl
@[simp] theorem reset_ovf : State.reset.ovf = false := rfl
@[simp] theorem reset_busy : State.reset.busy = .idle := rfl
@[simp] theorem reset_inq : State.reset.inq = [] := rfl
@[simp] theorem reset_out : State.reset.out = [] := rfl

@[simp] theorem finishOutcome_next (t : State) : finishOutcome (.next t) = .next t.finish := rfl
@[simp] theorem finishOutcome_fault (f : Fault) : finishOutcome (.fault f) = .fault f := rfl
@[simp] theorem finishOutcome_refused (r : Refusal) : finishOutcome (.refused r) = .refused r := rfl

end Sys2Proof.Machine
end

