-- ==== Sys2Proof/Laws/Buffer.lean ====
section
/-! SUPPORT. What the marker search, the FrameBuffer's operations and the scan do; proofs about U1 cite these and never
unfold the search. -/

namespace Sys2Proof.Machine

/-! The search (R7). -/

theorem PairAt.lt_length {bs : Bytes} {b0 b1 : Byte} {i : Nat} (h : PairAt bs b0 b1 i) : i + 1 < bs.length := by
  obtain ⟨-, h⟩ := h
  exact (List.getElem?_eq_some_iff.mp h).1

theorem pairAt_cons_succ (x : Byte) (bs : Bytes) (b0 b1 : Byte) (i : Nat) :
    PairAt (x :: bs) b0 b1 (i + 1) ↔ PairAt bs b0 b1 i := by simp [PairAt]

theorem pairAt_cons_zero (x : Byte) (bs : Bytes) (b0 b1 : Byte) :
    PairAt (x :: bs) b0 b1 0 ↔ x = b0 ∧ bs.head? = some b1 := by
  cases bs <;> simp [PairAt]

theorem pairAt_drop (bs : Bytes) (b0 b1 : Byte) (k i : Nat) :
    PairAt (bs.drop k) b0 b1 i ↔ PairAt bs b0 b1 (k + i) := by
  simp [PairAt, Nat.add_assoc]

theorem pairAt_append_left {xs : Bytes} (ys : Bytes) {b0 b1 : Byte} {i : Nat} (h : i + 1 < xs.length) :
    PairAt (xs ++ ys) b0 b1 i ↔ PairAt xs b0 b1 i := by
  simp [PairAt, List.getElem?_append_left h, List.getElem?_append_left (Nat.lt_of_succ_lt h)]

theorem pairAt_append_right (xs ys : Bytes) (b0 b1 : Byte) (i : Nat) :
    PairAt (xs ++ ys) b0 b1 (xs.length + i) ↔ PairAt ys b0 b1 i := by
  simp [PairAt, Nat.add_assoc, List.getElem?_append_right]

/-- `findPair` finds the least offset at which the pair stands. -/
theorem findPair_eq_some {b0 b1 : Byte} {bs : Bytes} {i : Nat} :
    findPair b0 b1 bs = some i ↔ PairAt bs b0 b1 i ∧ ∀ j, j < i → ¬ PairAt bs b0 b1 j := by
  induction bs generalizing i with
  | nil => simp [findPair, PairAt]
  | cons x bs ih =>
    rw [findPair]
    split
    · rename_i h
      rw [← pairAt_cons_zero x bs b0 b1] at h
      constructor
      · rintro ⟨⟩; exact ⟨h, fun j hj => absurd hj (Nat.not_lt_zero j)⟩
      · rintro ⟨-, hmin⟩
        cases i with
        | zero => rfl
        | succ i => exact absurd h (hmin 0 (Nat.succ_pos i))
    · rename_i h
      rw [← pairAt_cons_zero x bs b0 b1] at h
      cases i with
      | zero => simp [h]
      | succ i =>
        simp only [Option.map_eq_some_iff, Nat.add_right_cancel_iff, exists_eq_right, ih, pairAt_cons_succ]
        constructor
        · rintro ⟨hi, hmin⟩
          refine ⟨hi, fun j hj => ?_⟩
          cases j with
          | zero => exact h
          | succ j => rw [pairAt_cons_succ]; exact hmin j (Nat.lt_of_succ_lt_succ hj)
        · rintro ⟨hi, hmin⟩
          exact ⟨hi, fun j hj => by rw [← pairAt_cons_succ x]; exact hmin (j + 1) (Nat.succ_lt_succ hj)⟩

theorem findPair_eq_none {b0 b1 : Byte} {bs : Bytes} :
    findPair b0 b1 bs = none ↔ ∀ i, ¬ PairAt bs b0 b1 i := by
  constructor
  · intro h i hi
    classical
    have hex : ∃ i, PairAt bs b0 b1 i := ⟨i, hi⟩
    have := findPair_eq_some.mpr ⟨Nat.find_spec hex, fun j hj => Nat.find_min hex hj⟩
    simp [h] at this
  · intro h
    cases hf : findPair b0 b1 bs with
    | none => rfl
    | some i => exact absurd (findPair_eq_some.mp hf).1 (h i)

/-- `find2` finds the least offset at or after `start` (R7). -/
theorem find2_eq_some {bs : Bytes} {b0 b1 : Byte} {start i : Nat} :
    find2 bs b0 b1 start = some i ↔
      start ≤ i ∧ PairAt bs b0 b1 i ∧ ∀ j, start ≤ j → j < i → ¬ PairAt bs b0 b1 j := by
  simp only [find2, Option.map_eq_some_iff, findPair_eq_some, pairAt_drop]
  constructor
  · rintro ⟨k, ⟨hk, hmin⟩, rfl⟩
    refine ⟨Nat.le_add_left start k, by rwa [Nat.add_comm], fun j h1 h2 => ?_⟩
    have := hmin (j - start) (by omega)
    rwa [Nat.add_sub_cancel' h1] at this
  · rintro ⟨hle, hi, hmin⟩
    refine ⟨i - start, ⟨by rwa [Nat.add_sub_cancel' hle], fun j hj => hmin _ (by omega) (by omega)⟩, by omega⟩

theorem find2_eq_none {bs : Bytes} {b0 b1 : Byte} {start : Nat} :
    find2 bs b0 b1 start = none ↔ ∀ i, start ≤ i → ¬ PairAt bs b0 b1 i := by
  simp only [find2, Option.map_eq_none_iff, findPair_eq_none, pairAt_drop]
  constructor
  · intro h i hi
    have := h (i - start)
    rwa [Nat.add_sub_cancel' hi] at this
  · intro h i
    exact h _ (Nat.le_add_right start i)

theorem findStart_eq_some {bs : Bytes} {k : Nat} :
    findStart bs = some k ↔ StartAt bs k ∧ ∀ i, i < k → ¬ StartAt bs i := by
  simp [findStart, find2_eq_some, StartAt, startByte]

theorem findStart_eq_none {bs : Bytes} : findStart bs = none ↔ ∀ i, ¬ StartAt bs i := by
  simp [findStart, find2_eq_none, StartAt, startByte]

theorem findEnd_eq_some {bs : Bytes} {e : Nat} :
    findEnd bs = some e ↔ 4 ≤ e ∧ EndAt bs e ∧ ∀ i, 4 ≤ i → i < e → ¬ EndAt bs i := by
  simp [findEnd, find2_eq_some, EndAt, endByte0, endByte1, endSearchFrom]

theorem findEnd_eq_none {bs : Bytes} : findEnd bs = none ↔ ∀ i, 4 ≤ i → ¬ EndAt bs i := by
  simp [findEnd, find2_eq_none, EndAt, endByte0, endByte1, endSearchFrom]

/-! The start marker at offset 0 (R81). -/

theorem hasStart_iff {f : Bytes} : hasStart f = true ↔ StartAt f 0 := by
  match f with
  | [] => simp [hasStart, StartAt, PairAt]
  | [a] => simp [hasStart, StartAt, PairAt]
  | a :: b :: r => simp [hasStart, StartAt, PairAt, startByte]

/-- The canonical form of the FrameBuffer, as a Bool, is the invariant of R21. -/
theorem memory_wf_iff {buf : Bytes} : Memory.wf buf = true ↔ BufferInvariant buf := by
  simp only [Memory.wf, BufferInvariant, Bool.or_eq_true, beq_iff_eq, Bool.and_eq_true, hasStart_iff,
    Option.isNone_iff_eq_none, findEnd_eq_none]
  constructor
  · rintro (h | ⟨hs, he⟩)
    · exact .inl h
    · exact .inr ⟨hs.lt_length, hs.1, hs.2, he⟩
  · rintro (h | ⟨-, h0, h1, he⟩)
    · exact .inl h
    · exact .inr ⟨⟨h0, h1⟩, he⟩

/-! The scan (R121). -/

theorem Reassembles.unique {bs : Bytes} {fs fs' : List Frame} {r r' : Bytes} (h : Reassembles bs fs r)
    (h' : Reassembles bs fs' r') : fs = fs' ∧ r = r' := by
  have start {bs : Bytes} {k k' : Nat} (hs : StartAt bs k) (hf : ∀ i, i < k → ¬ StartAt bs i) (hs' : StartAt bs k')
      (hf' : ∀ i, i < k' → ¬ StartAt bs i) : k = k' :=
    Nat.le_antisymm (Nat.le_of_not_lt fun hlt => hf _ hlt hs') (Nat.le_of_not_lt fun hlt => hf' _ hlt hs)
  induction h generalizing fs' r' with
  | garbage bs h =>
    cases h' with
    | garbage => exact ⟨rfl, rfl⟩
    | wait _ k hs => exact absurd hs (h k)
    | emit _ k e fs _ hs => exact absurd hs (h k)
  | wait bs k hs hf he =>
    cases h' with
    | garbage _ h => exact absurd hs (h k)
    | wait _ k' hs' hf' => rw [start hs hf hs' hf']; exact ⟨rfl, rfl⟩
    | emit _ k' e fs _ hs' hf' h4 he' => rw [start hs hf hs' hf'] at he; exact absurd he' (he e h4)
  | emit bs k e fs r hs hf h4 he hl more ih =>
    cases h' with
    | garbage _ h => exact absurd hs (h k)
    | wait _ k' hs' hf' he' => rw [start hs hf hs' hf'] at he; exact absurd he (he' e h4)
    | emit _ k' e' fs' _ hs' hf' h4' he' hl' more' =>
      obtain rfl := start hs hf hs' hf'
      obtain rfl : e = e' := Nat.le_antisymm (Nat.le_of_not_lt fun hlt => hl _ h4' hlt he')
        (Nat.le_of_not_lt fun hlt => hl' _ h4 hlt he)
      obtain ⟨rfl, rfl⟩ := ih more'
      exact ⟨rfl, rfl⟩

theorem scanAux_reassembles (fuel : Nat) (bs : Bytes) (h : bs.length < fuel) :
    Reassembles bs (scanAux fuel bs).1 (scanAux fuel bs).2 := by
  induction fuel generalizing bs with
  | zero => exact absurd h (Nat.not_lt_zero _)
  | succ n ih =>
    rw [scanAux]
    split
    · next hs => exact .garbage bs (findStart_eq_none.mp hs)
    · next k hs =>
      obtain ⟨hk, hf⟩ := findStart_eq_some.mp hs
      split
      · next he => exact .wait bs k hk hf (findEnd_eq_none.mp he)
      · next e he =>
        obtain ⟨h4, hee, hl⟩ := findEnd_eq_some.mp he
        have hlen := hk.lt_length
        refine .emit bs k e _ _ hk hf h4 hee hl ?_
        rw [← List.drop_drop]
        exact ih _ (by simp only [List.length_drop]; omega)

/-- The scan reassembles; with `Reassembles.unique` this says all it does. -/
theorem scan_reassembles (bs : Bytes) : Reassembles bs (scan bs).1 (scan bs).2 :=
  scanAux_reassembles _ bs (Nat.lt_succ_self _)

theorem scan_eq_iff {bs : Bytes} {fs : List Frame} {r : Bytes} : scan bs = (fs, r) ↔ Reassembles bs fs r := by
  constructor
  · intro h; have := scan_reassembles bs; rwa [h] at this
  · intro h
    obtain ⟨h1, h2⟩ := (scan_reassembles bs).unique h
    exact Prod.ext h1 h2

/-- What the scan leaves satisfies the invariant of R21, whatever it starts from. -/
theorem Reassembles.invariant {bs : Bytes} {fs : List Frame} {r : Bytes} (h : Reassembles bs fs r) :
    BufferInvariant r := by
  induction h with
  | garbage => exact .inl rfl
  | wait bs k hs hf he =>
    refine .inr ⟨?_, ?_, ?_, he⟩
    · have := hs.lt_length; simp only [List.length_drop]; omega
    · simpa using hs.1
    · simpa using hs.2
  | emit _ _ _ _ _ _ _ _ _ _ _ ih => exact ih

/-- The scan never leaves more bytes than it was given. -/
theorem Reassembles.length_le {bs : Bytes} {fs : List Frame} {r : Bytes} (h : Reassembles bs fs r) :
    r.length ≤ bs.length := by
  induction h with
  | garbage => exact Nat.zero_le _
  | wait => simp
  | emit bs k e fs r hs hf h4 he hl more ih => simp only [List.length_drop] at ih; omega

/-- Every memory operation ends in the canonical form: the scan of the appended chunk, and the empty buffer. -/
theorem scan_wf (bs : Bytes) : Memory.wf (scan bs).2 = true := memory_wf_iff.mpr (scan_reassembles bs).invariant

theorem memory_append_scan_wf (buf chunk : Bytes) : Memory.wf (scan (Memory.append buf chunk)).2 = true := scan_wf _

theorem memory_wf_nil : Memory.wf [] = true := rfl

theorem reset_memory_wf : Memory.wf State.reset.buf = true := rfl

theorem scan_length_le (bs : Bytes) : (scan bs).2.length ≤ bs.length := (scan_reassembles bs).length_le

/-! The capacity (R65). -/

theorem fits_iff {p : Params} {buf chunk : Bytes} :
    fits p buf chunk = true ↔ ∀ cap, p.bufCap = some cap → buf.length + chunk.length ≤ cap := by
  unfold fits
  cases p.bufCap <;> simp

/-- What a feed does once its preconditions hold: it reassembles the buffer with the chunk, or overflows. -/
theorem feed_of_fits {s : State} {chunk : Bytes} (h : fits s.params s.buf chunk = true) :
    feed chunk s = (s.setBuf (scan (s.buf ++ chunk)).2).deliver (.frames (scan (s.buf ++ chunk)).1) := by
  simp [feed, h, Memory.append]

theorem feed_of_not_fits {s : State} {chunk : Bytes} (h : fits s.params s.buf chunk = false) :
    feed chunk s = s.takeOverflow := by
  simp [feed, h]

end Sys2Proof.Machine
end

