-- ==== Sys2Proof/Laws/Bytes.lean ====
section
/-! SUPPORT. Bytes, big-endian values and the bounded readers. -/

namespace Sys2Proof.Machine

/-! Big-endian values (R50). -/

theorem shift_or_byte (a : Nat) (b : Byte) : (a <<< 8) ||| b.toNat = a * 256 + b.toNat := by
  rw [← Nat.shiftLeft_add_eq_or_of_lt (b := b.toNat) (i := 8) b.isLt, Nat.shiftLeft_eq]

theorem beValue_two (b0 b1 : Byte) : beValue [b0, b1] = b0.toNat * 256 + b1.toNat := by
  simp [beValue, shift_or_byte]

theorem beValue_four (b0 b1 b2 b3 : Byte) :
    beValue [b0, b1, b2, b3] = b0.toNat * 2 ^ 24 + b1.toNat * 2 ^ 16 + b2.toNat * 2 ^ 8 + b3.toNat := by
  simp only [beValue, List.foldl_cons, List.foldl_nil, shift_or_byte]
  omega

theorem beValue_one (b : Byte) : beValue [b] = b.toNat := by simp [beValue]

theorem extract_hi_toNat (w : BitVec 16) : (w.extractLsb' 8 8).toNat = w.toNat / 256 := by
  have := w.isLt
  simp only [BitVec.extractLsb'_toNat, Nat.shiftRight_eq_div_pow]
  omega

theorem extract_lo_toNat (w : BitVec 16) : (w.extractLsb' 0 8).toNat = w.toNat % 256 := by
  simp [BitVec.extractLsb'_toNat]

/-- The two bytes of a 16-bit value make the value again, high byte first (R51). -/
theorem beValue_be16Bytes (w : BitVec 16) : beValue (be16Bytes w) = w.toNat := by
  rw [be16Bytes, beValue_two, extract_hi_toNat, extract_lo_toNat]
  omega

theorem beValue_be32Bytes (w : BitVec 32) : beValue (be32Bytes w) = w.toNat := by
  have := w.isLt
  simp only [be32Bytes, beValue_four, BitVec.extractLsb'_toNat, Nat.shiftRight_eq_div_pow]
  omega

/-! Bounded reads (R55). -/

theorem inRange_iff {f : Bytes} {off n : Nat} : inRange f off n = true ↔ off + n ≤ f.length := by simp [inRange]

theorem slice_of_le {f : Bytes} {off n : Nat} (h : off + n ≤ f.length) :
    slice f off n = some ((f.drop off).take n) := by simp [slice, inRange, h]

theorem slice_of_lt {f : Bytes} {off n : Nat} (h : f.length < off + n) : slice f off n = none := by
  simp [slice, inRange, h]

theorem memRead_of_lt {f : Bytes} {off n : Nat} (h : f.length < off + n) : memRead f off n = none := by
  simp [memRead, slice_of_lt h]

theorem getElem?_of_drop_eq_cons {f rest : Bytes} {off : Nat} {b : Byte} (h : f.drop off = b :: rest) :
    f[off]? = some b ∧ f.drop (off + 1) = rest := by
  constructor
  · have : (f.drop off)[0]? = some b := by rw [h]; rfl
    simpa using this
  · rw [← List.drop_drop, h]; rfl

theorem drop_eq_cons {f : Bytes} {off : Nat} (h : off < f.length) :
    ∃ b, f[off]? = some b ∧ f.drop off = b :: f.drop (off + 1) := by
  refine ⟨f[off], List.getElem?_eq_getElem h, List.drop_eq_getElem_cons h⟩

/-- One byte in range (R185). -/
theorem readU8_eq {f : Bytes} {off : Nat} {b : Byte} (h : f[off]? = some b) : readU8 f off = some b := by
  obtain ⟨hl, -⟩ := List.getElem?_eq_some_iff.mp h
  obtain ⟨b', hb, hd⟩ := drop_eq_cons hl
  obtain rfl : b = b' := Option.some.inj (h.symm.trans hb)
  generalize f.drop (off + 1) = rest at hd
  simp [readU8, memRead, slice_of_le (show off + 1 ≤ f.length by omega), hd, beValue_one]

theorem readU8_of_lt {f : Bytes} {off : Nat} (h : f.length < off + 1) : readU8 f off = none := by
  simp [readU8, memRead_of_lt h]

/-- Two bytes in range (R186). -/
theorem readU16be_eq {f : Bytes} {off : Nat} (h : off + 2 ≤ f.length) : ∃ (b0 b1 : Byte) (v : BitVec 16),
    f[off]? = some b0 ∧ f[off + 1]? = some b1 ∧ v.toNat = b0.toNat * 256 + b1.toNat ∧ readU16be f off = some v := by
  obtain ⟨b0, h0, d0⟩ := drop_eq_cons (f := f) (off := off) (by omega)
  obtain ⟨b1, h1, d1⟩ := drop_eq_cons (f := f) (off := off + 1) (by omega)
  refine ⟨b0, b1, BitVec.ofNat 16 (b0.toNat * 256 + b1.toNat), h0, h1, ?_, ?_⟩
  · have := b0.isLt
    have := b1.isLt
    simp only [BitVec.toNat_ofNat]
    omega
  · simp [readU16be, memRead, slice_of_le h, d0, d1, beValue_two]

theorem readU16be_of_lt {f : Bytes} {off : Nat} (h : f.length < off + 2) : readU16be f off = none := by
  simp [readU16be, memRead_of_lt h]

/-- Four bytes in range (R187). -/
theorem readU32be_eq {f : Bytes} {off : Nat} (h : off + 4 ≤ f.length) :
    ∃ (b0 b1 b2 b3 : Byte) (v : BitVec 32),
      f[off]? = some b0 ∧ f[off + 1]? = some b1 ∧ f[off + 2]? = some b2 ∧ f[off + 3]? = some b3 ∧
      v.toNat = b0.toNat * 2 ^ 24 + b1.toNat * 2 ^ 16 + b2.toNat * 2 ^ 8 + b3.toNat ∧ readU32be f off = some v := by
  obtain ⟨b0, h0, d0⟩ := drop_eq_cons (f := f) (off := off) (by omega)
  obtain ⟨b1, h1, d1⟩ := drop_eq_cons (f := f) (off := off + 1) (by omega)
  obtain ⟨b2, h2, d2⟩ := drop_eq_cons (f := f) (off := off + 2) (by omega)
  obtain ⟨b3, h3, d3⟩ := drop_eq_cons (f := f) (off := off + 3) (by omega)
  refine ⟨b0, b1, b2, b3, BitVec.ofNat 32 (b0.toNat * 2 ^ 24 + b1.toNat * 2 ^ 16 + b2.toNat * 2 ^ 8 + b3.toNat),
    h0, h1, h2, h3, ?_, ?_⟩
  · have := b0.isLt
    have := b1.isLt
    have := b2.isLt
    have := b3.isLt
    simp only [BitVec.toNat_ofNat]
    omega
  · simp [readU32be, memRead, slice_of_le h, d0, d1, d2, d3, beValue_four]

theorem readU32be_of_lt {f : Bytes} {off : Nat} (h : f.length < off + 4) : readU32be f off = none := by
  simp [readU32be, memRead_of_lt h]

theorem byteAt_eq {f : Bytes} {off : Nat} {b : Byte} (h : f[off]? = some b) : byteAt f off = b := by
  simp [byteAt, h]

theorem getElem?_eq_byteAt {f : Bytes} {off : Nat} (h : off < f.length) : f[off]? = some (byteAt f off) := by
  simp [byteAt, h]

/-- Eight bytes in range are the bytes of one identifier operand (R188, R189). -/
theorem slice_eight {f : Bytes} {off : Nat} (h : off + 8 ≤ f.length) :
    ∃ b : Bytes8, slice f off 8 = some (bytes8List b) := by
  obtain ⟨b0, -, d0⟩ := drop_eq_cons (f := f) (off := off) (by omega)
  obtain ⟨b1, -, d1⟩ := drop_eq_cons (f := f) (off := off + 1) (by omega)
  obtain ⟨b2, -, d2⟩ := drop_eq_cons (f := f) (off := off + 2) (by omega)
  obtain ⟨b3, -, d3⟩ := drop_eq_cons (f := f) (off := off + 3) (by omega)
  obtain ⟨b4, -, d4⟩ := drop_eq_cons (f := f) (off := off + 4) (by omega)
  obtain ⟨b5, -, d5⟩ := drop_eq_cons (f := f) (off := off + 5) (by omega)
  obtain ⟨b6, -, d6⟩ := drop_eq_cons (f := f) (off := off + 6) (by omega)
  obtain ⟨b7, -, d7⟩ := drop_eq_cons (f := f) (off := off + 7) (by omega)
  exact ⟨⟨b0, b1, b2, b3, b4, b5, b6, b7⟩, by
    simp [slice_of_le h, d0, d1, d2, d3, d4, d5, d6, d7, bytes8List]⟩

/-- Six bytes in range, one by one (R188, R201). -/
theorem slice_six {f : Bytes} {off : Nat} (h : off + 6 ≤ f.length) :
    ∃ y m d hh mi ss : Byte, slice f off 6 = some [y, m, d, hh, mi, ss] := by
  obtain ⟨b0, -, d0⟩ := drop_eq_cons (f := f) (off := off) (by omega)
  obtain ⟨b1, -, d1⟩ := drop_eq_cons (f := f) (off := off + 1) (by omega)
  obtain ⟨b2, -, d2⟩ := drop_eq_cons (f := f) (off := off + 2) (by omega)
  obtain ⟨b3, -, d3⟩ := drop_eq_cons (f := f) (off := off + 3) (by omega)
  obtain ⟨b4, -, d4⟩ := drop_eq_cons (f := f) (off := off + 4) (by omega)
  obtain ⟨b5, -, d5⟩ := drop_eq_cons (f := f) (off := off + 5) (by omega)
  exact ⟨b0, b1, b2, b3, b4, b5, by simp [slice_of_le h, d0, d1, d2, d3, d4, d5]⟩

end Sys2Proof.Machine
end

