-- ==== Sys2Proof/Laws/Checksums.lean ====
section
/-! SUPPORT. The checksum units: what one bit step of the CRC does, and the exclusive-or of a range as parities. -/

namespace Sys2Proof.Machine

/-- One bit step on values (R150). -/
theorem crcBit_toNat (reg : BitVec 16) :
    (crcBit reg).toNat = if reg.toNat % 2 = 1 then (reg.toNat / 2) ^^^ 0x8408 else reg.toNat / 2 := by
  have hb : reg.getLsbD 0 = decide (reg.toNat % 2 = 1) := by
    simp [BitVec.getLsbD, Nat.testBit_zero]
  unfold crcBit
  rw [hb]
  split
  · next h => simp_all [crcPoly, Nat.shiftRight_eq_div_pow]
  · next h => simp_all [Nat.shiftRight_eq_div_pow]

theorem crcStep_start_toNat (reg : BitVec 16) (b : Byte) :
    (reg ^^^ b.setWidth 16).toNat = reg.toNat ^^^ b.toNat := by
  have := b.isLt
  simp [BitVec.toNat_setWidth, Nat.mod_eq_of_lt (show b.toNat < 65536 by omega)]

/-- The register after `k` bit steps, as a sequence. -/
theorem crcBits_succ (k : Nat) (reg : BitVec 16) : crcBits (k + 1) reg = crcBit (crcBits k reg) := by
  induction k generalizing reg with
  | zero => rfl
  | succ k ih => rw [crcBits, ih, ← crcBits]

/-- A bit step loses nothing: the shifted-out bit is seen in the top bit, which only `0x8408` can set. -/
theorem crcBit_injective : Function.Injective crcBit := by
  intro a b h
  have h15 (r : BitVec 16) : (crcBit r).getLsbD 15 = r.getLsbD 0 := by
    unfold crcBit
    split <;> simp_all [crcPoly]
  have h0 : a.getLsbD 0 = b.getLsbD 0 := by rw [← h15 a, ← h15 b, h]
  have hs : a >>> 1 = b >>> 1 := by
    unfold crcBit at h
    rw [h0] at h
    split at h
    · exact BitVec.xor_left_inj _ |>.mp h
    · exact h
  refine BitVec.eq_of_getLsbD_eq fun i hi => ?_
  cases i with
  | zero => exact h0
  | succ i =>
    have := congrArg (fun v : BitVec 16 => v.getLsbD i) hs
    simpa [Nat.add_comm] using this

theorem crcBits_injective (k : Nat) : Function.Injective (crcBits k) := by
  induction k with
  | zero => exact fun _ _ h => h
  | succ k ih => exact fun a b h => crcBit_injective (ih h)

/-- For a fixed byte, CRC.STEP is a bijection on the register (R150). -/
theorem crcStep_bijective (b : Byte) : Function.Bijective (crcStep · b) :=
  Finite.injective_iff_bijective.mp fun _ _ h => BitVec.xor_left_inj _ |>.mp (crcBits_injective 8 h)

/-- The register of CRC16 after the first `k` bytes. -/
theorem crc_foldl_take_succ (m : Bytes) (k : Nat) (b : Byte) (h : m[k]? = some b) :
    (m.take (k + 1)).foldl crcStep crcInit = crcStep ((m.take k).foldl crcStep crcInit) b := by
  rw [List.take_add_one, h, List.foldl_append]
  rfl

/-! XOR (R170). -/

theorem xor_foldl_bit (bs : Bytes) (a : Byte) (j : Nat) :
    ((bs.foldl (· ^^^ ·) a).getLsbD j = true) ↔
      (bs.countP (fun b => b.getLsbD j) + (if a.getLsbD j then 1 else 0)) % 2 = 1 := by
  induction bs generalizing a with
  | nil => cases h : a.getLsbD j <;> simp [h]
  | cons b bs ih =>
    rw [List.foldl_cons, ih, List.countP_cons, BitVec.getLsbD_xor]
    cases a.getLsbD j <;> cases b.getLsbD j <;> simp
    omega

/-- Each bit of XOR.SUM is the parity of that bit over the range. -/
theorem xorRange_bit (src : Bytes) (lo hi j : Nat) :
    (xorRange src lo hi).getLsbD j = true ↔
      ((src.drop lo).take (hi - lo)).countP (fun b => b.getLsbD j) % 2 = 1 := by
  rw [xorRange, xor_foldl_bit]
  simp

end Sys2Proof.Machine
end

