-- ==== Sys2Proof/Laws/Encoding.lean ====
section
/-! SUPPORT. The parts of the encodings: operation selects, natural-number operands, one-bit operands, and the header
table of the frame classes. -/

namespace Sys2Proof

/-- The operation of an operation byte is the operation (R96). -/
@[simp] theorem opOfSelect_opByte (o : OpName) : opOfSelect (opSelect (opByte o)) = some o := by cases o <;> decide

/-- The operation numbers are pairwise different: no two rows of the table overlap (R96). -/
theorem opTable_pairwise : opTable.Pairwise (fun a b => a.1 ≠ b.1) := by decide

theorem decodeOp_opByte (o : OpName) (bs : Bytes) :
    decodeOp (opByte o :: bs) =
      match decodeOperands o bs with
      | some i => .ok i
      | none => .rejected .badOperands := by
  cases h : decodeOperands o bs <;> simp [decodeOp, h]

/-- A natural-number operand is read back, whatever follows it. -/
theorem decodeNat_encodeNatAux (fuel n : Nat) (h : n ≤ fuel) (r : Bytes) :
    decodeNat (encodeNatAux fuel n ++ r) = some (n, r) := by
  induction fuel generalizing n with
  | zero =>
    obtain rfl : n = 0 := Nat.le_zero.mp h
    simp [encodeNatAux, decodeNat]
  | succ k ih =>
    rw [encodeNatAux]
    split
    · next hn => simp [decodeNat, Nat.mod_eq_of_lt (show n < 256 by omega), hn]
    · next hn =>
      have hb : (BitVec.ofNat 8 (128 + n % 128)).toNat = 128 + n % 128 := by
        simp only [BitVec.toNat_ofNat]; omega
      rw [List.cons_append, decodeNat, hb, if_neg (by omega), ih (n / 128) (by omega)]
      simp only [Option.map_some, Option.some.injEq, Prod.mk.injEq, and_true]
      omega

@[simp] theorem decodeNat_encodeNat (n : Nat) (r : Bytes) : decodeNat (encodeNat n ++ r) = some (n, r) :=
  decodeNat_encodeNatAux n n (Nat.le_refl n) r

/-- A natural number takes the bytes up to its first byte below 0x80: where there is none, no number is read. -/
theorem decodeNat_cases (bs : Bytes) :
    (bs.countP (fun x => x.toNat < 128) = 0 ∧ decodeNat bs = none) ∨
    (∃ n r, decodeNat bs = some (n, r) ∧
      bs.countP (fun x => x.toNat < 128) = r.countP (fun x => x.toNat < 128) + 1) := by
  induction bs with
  | nil => exact .inl ⟨rfl, rfl⟩
  | cons b bs ih =>
    by_cases hb : b.toNat < 128
    · exact .inr ⟨b.toNat, bs, by rw [decodeNat, if_pos hb], by simp [hb]⟩
    · obtain ⟨hc, hd⟩ | ⟨n, r, hd, hc⟩ := ih
      · exact .inl ⟨by rw [List.countP_cons, hc]; simp [hb], by rw [decodeNat, if_neg hb, hd]; rfl⟩
      · exact .inr ⟨_, r, by rw [decodeNat, if_neg hb, hd]; rfl, by rw [List.countP_cons, hc]; simp [hb]⟩

@[simp] theorem decodeBit_encodeBit (v : Bool) : decodeBit (encodeBit v) = some v := by cases v <;> decide

@[simp] theorem decodeAxis_encodeAxis (a : Axis) : decodeAxis (encodeAxis a) = some a := by cases a <;> decide

/-! The header table (R94). -/

theorem frameHeader_toNat (b0 b1 b2 b3 : Byte) :
    (frameHeader b0 b1 b2 b3).toNat =
      b0.toNat * 2 ^ 24 + b1.toNat * 2 ^ 16 + b2.toNat * 2 ^ 8 + b3.toNat := by
  simp only [frameHeader, BitVec.toNat_append]
  rw [← Nat.shiftLeft_add_eq_or_of_lt b3.isLt, ← Nat.shiftLeft_add_eq_or_of_lt b2.isLt,
    ← Nat.shiftLeft_add_eq_or_of_lt b1.isLt]
  simp only [Nat.shiftLeft_eq]
  omega

theorem append_and {v w : Nat} (x m : BitVec v) (y n : BitVec w) :
    (x ++ y) &&& (m ++ n) = (x &&& m) ++ (y &&& n) := by
  ext i hi
  simp only [BitVec.getElem_and, BitVec.getElem_append]
  split <;> rfl

/-- Masking a header masks its bytes. -/
theorem frameHeader_and (b0 b1 b2 b3 m0 m1 m2 m3 : Byte) :
    frameHeader b0 b1 b2 b3 &&& frameHeader m0 m1 m2 m3 =
      frameHeader (b0 &&& m0) (b1 &&& m1) (b2 &&& m2) (b3 &&& m3) := by
  have h := append_and (b0 ++ b1 ++ b2) (m0 ++ m1 ++ m2) b3 m3
  rw [append_and (b0 ++ b1), append_and b0] at h
  exact h

theorem frameHeader_inj {b0 b1 b2 b3 c0 c1 c2 c3 : Byte} :
    frameHeader b0 b1 b2 b3 = frameHeader c0 c1 c2 c3 ↔ b0 = c0 ∧ b1 = c1 ∧ b2 = c2 ∧ b3 = c3 := by
  constructor
  · intro h
    have h := congrArg BitVec.toNat h
    simp only [frameHeader_toNat] at h
    have := b0.isLt
    have := b1.isLt
    have := b2.isLt
    have := b3.isLt
    have := c0.isLt
    have := c1.isLt
    have := c2.isLt
    have := c3.isLt
    refine ⟨BitVec.eq_of_toNat_eq ?_, BitVec.eq_of_toNat_eq ?_, BitVec.eq_of_toNat_eq ?_, BitVec.eq_of_toNat_eq ?_⟩ <;>
      omega
  · rintro ⟨rfl, rfl, rfl, rfl⟩; rfl

theorem byte_and_ff (b : Byte) : b &&& 0xFF = b := by
  have : (0xFF : Byte) = BitVec.allOnes 8 := by decide
  rw [this, BitVec.and_allOnes]

theorem byte_and_zero (b : Byte) : b &&& 0x00 = 0x00 := by simp

/-- A row whose mask keeps offsets 0, 1 and 3 matches exactly the headers with those three bytes. -/
theorem header_typeRow (b0 b1 b2 b3 t : Byte) :
    (frameHeader b0 b1 b2 b3 &&& 0xFFFF00FF = frameHeader 0x78 0x78 0 t) ↔ b0 = 0x78 ∧ b1 = 0x78 ∧ b3 = t := by
  have hm : (0xFFFF00FF : BitVec 32) = frameHeader 0xFF 0xFF 0x00 0xFF := by decide
  rw [hm, frameHeader_and, frameHeader_inj]
  simp only [byte_and_ff, byte_and_zero, true_and]

theorem header_locfamRow (b0 b1 b2 b3 : Byte) :
    (frameHeader b0 b1 b2 b3 &&& 0xFFFF00FF = 0x78780001) ↔ b0 = 0x78 ∧ b1 = 0x78 ∧ b3 = 0x01 := by
  have hp : (0x78780001 : BitVec 32) = frameHeader 0x78 0x78 0 0x01 := by decide
  rw [hp, header_typeRow]

theorem header_heartbeatRow (b0 b1 b2 b3 : Byte) :
    (frameHeader b0 b1 b2 b3 &&& 0xFFFF00FF = 0x78780004) ↔ b0 = 0x78 ∧ b1 = 0x78 ∧ b3 = 0x04 := by
  have hp : (0x78780004 : BitVec 32) = frameHeader 0x78 0x78 0 0x04 := by decide
  rw [hp, header_typeRow]

theorem header_unknownRow (b0 b1 b2 b3 : Byte) :
    (frameHeader b0 b1 b2 b3 &&& 0xFFFF0000 = 0x78780000) ↔ b0 = 0x78 ∧ b1 = 0x78 := by
  have hm : (0xFFFF0000 : BitVec 32) = frameHeader 0xFF 0xFF 0x00 0x00 := by decide
  have hp : (0x78780000 : BitVec 32) = frameHeader 0x78 0x78 0 0 := by decide
  rw [hm, hp, frameHeader_and, frameHeader_inj]
  simp only [byte_and_ff, byte_and_zero, and_true]

/-- The class of a header, row by row (R94). -/
theorem classOfHeader_eq (h : BitVec 32) :
    classOfHeader h =
      if h &&& 0xFFFF00FF = 0x78780001 then .locfam
      else if h &&& 0xFFFF00FF = 0x78780004 then .heartbeat
      else if h &&& 0xFFFF0000 = 0x78780000 then .unknown
      else .rejected := by
  simp only [classOfHeader, frameRows, List.find?_cons, List.find?_nil]
  by_cases h1 : h &&& 0xFFFF00FF = 0x78780001
  · simp_all
  by_cases h2 : h &&& 0xFFFF00FF = 0x78780004
  · simp_all
  by_cases h3 : h &&& 0xFFFF0000 = 0x78780000
  · rw [if_neg h1, if_neg h2, if_pos h3, beq_eq_false_iff_ne.mpr h1, beq_eq_false_iff_ne.mpr h2, beq_iff_eq.mpr h3]
  · rw [if_neg h1, if_neg h2, if_neg h3, beq_eq_false_iff_ne.mpr h1, beq_eq_false_iff_ne.mpr h2,
      beq_eq_false_iff_ne.mpr h3]
    simp

/-- The class of a header by its bytes (R94). -/
theorem classOfHeader_bytes (b0 b1 b2 b3 : Byte) :
    classOfHeader (frameHeader b0 b1 b2 b3) =
      if b0 = 0x78 ∧ b1 = 0x78 then
        if b3 = 0x01 then .locfam else if b3 = 0x04 then .heartbeat else .unknown
      else .rejected := by
  rw [classOfHeader_eq]
  simp only [header_locfamRow, header_heartbeatRow, header_unknownRow]
  by_cases h0 : b0 = 0x78 <;> by_cases h1 : b1 = 0x78 <;> simp_all

/-- What the frame decoder reads from at least four bytes. -/
theorem decodeFrame_cons (b0 b1 b2 b3 : Byte) (rest : Bytes) :
    decodeFrame (b0 :: b1 :: b2 :: b3 :: rest) =
      if b0 = 0x78 ∧ b1 = 0x78 then
        if b3 = 0x01 then .frameLocfam b2 rest
        else if b3 = 0x04 then .frameHeartbeat b2 rest
        else .frameUnknown b2 b3 rest
      else .frameRejected (b0 :: b1 :: b2 :: b3 :: rest) := by
  simp only [decodeFrame, classOfHeader_bytes]
  split_ifs <;> rfl

theorem decodeFrame_short {f : Bytes} (h : f.length < 4) : decodeFrame f = .frameRejected f := by
  match f, h with
  | [], _ => rfl
  | [_], _ => rfl
  | [_, _], _ => rfl
  | [_, _, _], _ => rfl
  | _ :: _ :: _ :: _ :: _, h => exact absurd h (by simp only [List.length_cons]; omega)

theorem rejectedOk_iff {f : Bytes} : rejectedOk f = true ↔ f.length < 4 ∨ ¬ Machine.hasStart f = true := by
  match f with
  | [] => simp [rejectedOk]
  | [_] => simp [rejectedOk]
  | [_, _] => simp [rejectedOk]
  | [_, _, _] => simp [rejectedOk]
  | b0 :: b1 :: _ :: _ :: r =>
    simp only [rejectedOk, Machine.hasStart, Machine.startByte, List.length_cons, Bool.not_eq_true']
    simp

/-- The ten bytes of an acknowledgement word are read back (R88). -/
theorem decodeAck_bytes (t s0 s1 : Byte) (c : BitVec 16) :
    decodeAck (Instr.frameAck t s0 s1 c).bytes = .ok (.frameAck t s0 s1 c) := by
  simp only [Instr.bytes, Machine.be16Bytes, List.cons_append, List.nil_append, decodeAck, and_self, if_true]
  have := Machine.beValue_be16Bytes c
  rw [Machine.be16Bytes] at this
  simp [this]

end Sys2Proof
end

