-- ==== Sys2Proof/Laws/Exec.lean ====
section
/-! SUPPORT. What an instruction can do, said once: every proof about all instructions cites these. -/

namespace Sys2Proof.Machine

/-- RSM.FEED, once its preconditions hold. -/
theorem exec_feed_next {s t : State} {chunk : Bytes} (h : exec (.rsmFeed chunk) s = .next t) :
    s.busy = .idle ∧ s.ovf = false ∧ t = feed chunk s := by
  simp only [exec, execRsmFeed] at h
  split at h
  · cases h
  · cases h
  · next hb =>
    split at h
    · cases h
    · next ho => cases h; exact ⟨hb, by simpa using ho, rfl⟩

theorem exec_feed_of_ready {s : State} {chunk : Bytes} (hb : s.busy = .idle) (ho : s.ovf = false) :
    exec (.rsmFeed chunk) s = .next (feed chunk s) := by
  simp [exec, execRsmFeed, hb, ho]

/-- RSM.FEED that completes reassembles or overflows. -/
theorem exec_feed_cases {s t : State} {chunk : Bytes} (h : exec (.rsmFeed chunk) s = .next t) :
    s.busy = .idle ∧ s.ovf = false ∧
    ((fits s.params s.buf chunk = true ∧
        t = (s.setBuf (scan (s.buf ++ chunk)).2).deliver (.frames (scan (s.buf ++ chunk)).1)) ∨
     (fits s.params s.buf chunk = false ∧ t = s.takeOverflow)) := by
  obtain ⟨hb, ho, rfl⟩ := exec_feed_next h
  refine ⟨hb, ho, ?_⟩
  cases hf : fits s.params s.buf chunk with
  | true => exact .inl ⟨rfl, feed_of_fits hf⟩
  | false => exact .inr ⟨rfl, feed_of_not_fits hf⟩

theorem exec_clear_next {s t : State} (h : exec .rsmClear s = .next t) : s.busy ≠ .feed ∧ t = s.clear := by
  simp only [exec, execRsmClear] at h
  split at h
  · cases h
  · next hb => cases h; exact ⟨by simp [hb], rfl⟩
  · next hb => cases h; exact ⟨by simp [hb], rfl⟩

/-- A reader never delivers the overflow. -/
theorem readResult_ne_overflow {α : Type} {mk : α → Result} (h : ∀ x, mk x ≠ .overflow) (v : Option α) :
    readResult mk v ≠ .overflow := by
  cases v with
  | none => exact Result.noConfusion
  | some x => exact h x

/-- Every other instruction that completes only delivers one result, which is not the overflow. -/
theorem exec_deliver {i : Instr} {s t : State} (h : exec i s = .next t) (hf : ∀ c, i ≠ .rsmFeed c)
    (hc : i ≠ .rsmClear) : ∃ r, r ≠ .overflow ∧ t = s.deliver r := by
  cases i with
  | rsmFeed c => exact absurd rfl (hf c)
  | rsmClear => exact absurd rfl hc
  | xorSum src lo hi =>
    simp only [exec, execXorSum] at h
    split at h <;> cases h
    exact ⟨_, Result.noConfusion, rfl⟩
  | xorVerify f =>
    simp only [exec, execXorVerify] at h
    split at h <;> cases h
    exact ⟨_, Result.noConfusion, rfl⟩
  | ackFromframe f =>
    simp only [exec, execAckFromframe] at h
    split at h <;> cases h
    exact ⟨_, Result.noConfusion, rfl⟩
  | rdU8 src off => cases h; exact ⟨_, readResult_ne_overflow (fun _ => Result.noConfusion) _, rfl⟩
  | rdU16be src off => cases h; exact ⟨_, readResult_ne_overflow (fun _ => Result.noConfusion) _, rfl⟩
  | rdU32be src off => cases h; exact ⟨_, readResult_ne_overflow (fun _ => Result.noConfusion) _, rfl⟩
  | rdBytes src off n => cases h; exact ⟨_, readResult_ne_overflow (fun _ => Result.noConfusion) _, rfl⟩
  | _ => cases h; exact ⟨_, Result.noConfusion, rfl⟩

/-- The three shapes of a completed instruction. -/
theorem exec_cases {i : Instr} {s t : State} (h : exec i s = .next t) :
    (∃ c, i = .rsmFeed c ∧ s.busy = .idle ∧ s.ovf = false ∧
      ((fits s.params s.buf c = true ∧
          t = (s.setBuf (scan (s.buf ++ c)).2).deliver (.frames (scan (s.buf ++ c)).1)) ∨
       (fits s.params s.buf c = false ∧ t = s.takeOverflow))) ∨
    (i = .rsmClear ∧ s.busy ≠ .feed ∧ t = s.clear) ∨
    ((∀ c, i ≠ .rsmFeed c) ∧ i ≠ .rsmClear ∧ ∃ r, r ≠ .overflow ∧ t = s.deliver r) := by
  by_cases hf : ∃ c, i = .rsmFeed c
  · obtain ⟨c, rfl⟩ := hf
    exact .inl ⟨c, rfl, exec_feed_cases h⟩
  by_cases hc : i = .rsmClear
  · subst hc
    exact .inr (.inl ⟨rfl, exec_clear_next h⟩)
  · have hf' : ∀ c, i ≠ .rsmFeed c := fun c hi => hf ⟨c, hi⟩
    exact .inr (.inr ⟨hf', hc, exec_deliver h hf' hc⟩)

/-- What a step can do: wait, or perform the next command. -/
theorem step_cases {s t : State} (h : step s = .next t) :
    (s.inq = [] ∧ t = s) ∨
    (∃ c rest i u, s.inq = c :: rest ∧ decode c.fmt c.bytes = .ok i ∧ exec i (s.begin c rest) = .next u ∧
      t = u.finish) := by
  unfold step at h
  split at h
  · next hq => cases h; exact .inl ⟨hq, rfl⟩
  · next c rest hq =>
    split at h
    · cases h
    · next i hd =>
      cases he : exec i (s.begin c rest) with
      | next u => rw [he] at h; cases h; exact .inr ⟨c, rest, i, u, hq, hd, he, rfl⟩
      | fault f => cases f
      | refused r => rw [he] at h; cases h

/-- What a step does to `ovf` and the output port: what it delivers is new, and `ovf` becomes 1 exactly in a step that
delivers the overflow (R65). -/
theorem step_output {s t : State} (h : step s = .next t) :
    (t.out = s.out ∧ (t.ovf = true → s.ovf = true)) ∨
    (t.out = s.out ++ [.overflow] ∧ s.ovf = false ∧ t.ovf = true) ∨
    (∃ r, r ≠ .overflow ∧ t.out = s.out ++ [r] ∧ t.ovf = s.ovf) := by
  obtain ⟨-, rfl⟩ | ⟨c, rest, i, u, hq, hd, he, rfl⟩ := step_cases h
  · exact .inl ⟨rfl, id⟩
  · obtain ⟨ch, rfl, hb, ho, ⟨hf, rfl⟩ | ⟨hf, rfl⟩⟩ | ⟨rfl, -, rfl⟩ | ⟨-, -, r, hr, rfl⟩ := exec_cases he
    · exact .inr (.inr ⟨_, Result.noConfusion, rfl, rfl⟩)
    · exact .inr (.inl ⟨rfl, ho, rfl⟩)
    · exact .inl ⟨rfl, fun h => by simp at h⟩
    · exact .inr (.inr ⟨r, hr, rfl, rfl⟩)

theorem step_of_decoded {s : State} {c : Command} {rest : List Command} {i : Instr} (hq : s.inq = c :: rest)
    (hd : decode c.fmt c.bytes = .ok i) : step s = finishOutcome (exec i (s.begin c rest)) := by
  unfold step
  rw [hq]
  simp only [hd]

end Sys2Proof.Machine
end

