-- ==== Sys2Proof/Laws/Extract.lean ====
section
/-! SUPPORT. What FX.CLASSIFY and FX.EXTRACT do, path by path and length by length. -/

namespace Sys2Proof.Machine

/-! Classification (R190). -/

theorem classify_rejected {f : Bytes} (h : f.length < 4 ∨ ¬ StartAt f 0) : classify f = .rejected := by
  unfold classify
  split
  · next hs =>
    rw [if_pos (h.resolve_right (not_not_intro (hasStart_iff.mp hs)))]
  · rfl

theorem classify_of_type {f : Bytes} {t : Byte} (hs : StartAt f 0) (ht : f[3]? = some t) :
    classify f = if t = 0x01 then .locfam else if t = 0x04 then .heartbeat else .unknown := by
  have hl : 3 < f.length := (List.getElem?_eq_some_iff.mp ht).1
  rw [classify, if_pos (hasStart_iff.mpr hs), if_neg (by omega), offType, byteAt_eq ht]
  rfl

theorem classify_cons (l t : Byte) (rest : Bytes) :
    classify (0x78 :: 0x78 :: l :: t :: rest) =
      if t = 0x01 then .locfam else if t = 0x04 then .heartbeat else .unknown :=
  classify_of_type ⟨rfl, rfl⟩ rfl

/-! The paths of FX.EXTRACT (R191). -/

theorem extract_rejected {p : Params} {f : Bytes} (h : f.length < 4 ∨ ¬ StartAt f 0) :
    extract p f = extractRejected f := by rw [extract, classify_rejected h]

theorem extract_locfam {p : Params} {f : Bytes} (hs : StartAt f 0) (ht : f[3]? = some 0x01) :
    extract p f = extractLocfam p f := by rw [extract, classify_of_type hs ht]; rfl

theorem extract_heartbeat {p : Params} {f : Bytes} (hs : StartAt f 0) (ht : f[3]? = some 0x04) :
    extract p f = extractHeartbeat p f := by rw [extract, classify_of_type hs ht]; rfl

theorem extract_unknown {p : Params} {f : Bytes} {t : Byte} (hs : StartAt f 0) (ht : f[3]? = some t)
    (h1 : t ≠ 0x01) (h4 : t ≠ 0x04) : extract p f = extractUnknown f := by
  rw [extract, classify_of_type hs ht, if_neg h1, if_neg h4]

/-- The header's fields are the bytes at offsets 2 and 3 (R191). -/
theorem recHeader_hdr {c : Cls} {f : Bytes} {t : Byte} (ht : f[3]? = some t) :
    ∃ l, f[2]? = some l ∧ (recHeader c f).hdr = some ⟨l, t⟩ := by
  have hl : 3 < f.length := (List.getElem?_eq_some_iff.mp ht).1
  exact ⟨byteAt f 2, getElem?_eq_byteAt (by omega), by simp [recHeader, offLen, offType, byteAt_eq ht]⟩

/-! The location-family path, by length (R195). -/

theorem locfam_short {p : Params} {f : Bytes} (h : f.length < 12) :
    extractLocfam p f = { recHeader .locfam f with err := .outOfRange } := by
  rw [extractLocfam, slice_of_lt (by simpa [offId] using h)]
  rfl

theorem locfam_noSeq {p : Params} {f : Bytes} {b : Bytes} (hb : slice f 4 8 = some b) (h : f.length < 14) :
    extractLocfam p f =
      { recHeader .locfam f with ident := some (identFields p b), err := .outOfRange } := by
  rw [extractLocfam, offId, hb, readU16be_of_lt (by simpa [offSeq] using h)]
  rfl

theorem locfam_noFix {p : Params} {f : Bytes} {b : Bytes} {q : BitVec 16} (hb : slice f 4 8 = some b)
    (hq : readU16be f 12 = some q) (h : f.length < 28) :
    extractLocfam p f = { recHeader .locfam f with ident := some (identFields p b), seq := some q } := by
  rw [extractLocfam, offId, hb, offSeq, hq]
  exact if_pos h

/-- REC of a location-family frame once the course has been read (R192). -/
def recCourse (p : Params) (f b : Bytes) (q : BitVec 16) (lat lon : BitVec 32) (alt spd course : BitVec 16) : Rec :=
  { recHeader .locfam f with
    ident := some (identFields p b), seq := some q, gpsReady := true, latRaw := some lat, lonRaw := some lon,
    alt := some alt, spdRaw := some spd, course := some course }

theorem locfam_fix {p : Params} {f : Bytes} {b : Bytes} {q alt spd course : BitVec 16} {lat lon : BitVec 32}
    (hb : slice f 4 8 = some b) (hq : readU16be f 12 = some q) (hlat : readU32be f 14 = some lat)
    (hlon : readU32be f 18 = some lon) (halt : readU16be f 22 = some alt) (hspd : readU16be f 24 = some spd)
    (hcrs : readU16be f 26 = some course) (h : 28 ≤ f.length) :
    extractLocfam p f = extractTail f lat lon (recCourse p f b q lat lon alt spd course) := by
  rw [extractLocfam, offId, hb, offSeq, hq]
  refine (if_neg (show ¬ f.length < gpsReadyMinLen by simpa [gpsReadyMinLen] using h)).trans ?_
  rw [extractFix, offLat, hlat, offLon, hlon, offAlt, halt, offSpd, hspd, offCourse, hcrs]
  rfl

theorem tail_noTs {f : Bytes} {lat lon : BitVec 32} {r : Rec} (h : f.length < 34) :
    extractTail f lat lon r = { r with err := .outOfRange } := by
  rw [extractTail, slice_of_lt (by simpa [offTs] using h)]
  rfl

theorem tail_noStatus {f : Bytes} {lat lon : BitVec 32} {r : Rec} {t : Bytes} (ht : slice f 28 6 = some t)
    (h : f.length < 35) : extractTail f lat lon r = { r with ts := some (tsFields t), err := .outOfRange } := by
  rw [extractTail, offTs, ht, readU8_of_lt (by simpa [offStatus] using h)]
  rfl

theorem tail_full {f : Bytes} {lat lon : BitVec 32} {r : Rec} {t : Bytes} {st : Byte} (ht : slice f 28 6 = some t)
    (hst : readU8 f 34 = some st) :
    extractTail f lat lon r = { r with ts := some (tsFields t), st := some (stFields st lat lon) } := by
  rw [extractTail, offTs, ht, offStatus, hst]

/-- A location-family frame is of exactly one of six kinds, by its length, and REC is as R195's table says. -/
theorem locfam_cases (p : Params) (f : Bytes) :
    (f.length < 12 ∧ extractLocfam p f = { recHeader .locfam f with err := .outOfRange }) ∨
    (∃ b : Bytes8, 12 ≤ f.length ∧ slice f 4 8 = some (bytes8List b) ∧
      ((f.length < 14 ∧ extractLocfam p f =
          { recHeader .locfam f with ident := some (identFields p (bytes8List b)), err := .outOfRange }) ∨
       (∃ q, 14 ≤ f.length ∧ readU16be f 12 = some q ∧
          ((f.length < 28 ∧ extractLocfam p f =
              { recHeader .locfam f with ident := some (identFields p (bytes8List b)), seq := some q }) ∨
           (∃ lat lon alt spd course, 28 ≤ f.length ∧ readU32be f 14 = some lat ∧ readU32be f 18 = some lon ∧
              readU16be f 22 = some alt ∧ readU16be f 24 = some spd ∧ readU16be f 26 = some course ∧
              ((f.length < 34 ∧ extractLocfam p f =
                  { recCourse p f (bytes8List b) q lat lon alt spd course with err := .outOfRange }) ∨
               (∃ yy mo dd hh mi ss, 34 ≤ f.length ∧ slice f 28 6 = some [yy, mo, dd, hh, mi, ss] ∧
                  ((f.length < 35 ∧ extractLocfam p f =
                      { recCourse p f (bytes8List b) q lat lon alt spd course with
                        ts := some (tsFields [yy, mo, dd, hh, mi, ss]), err := .outOfRange }) ∨
                   (∃ st, 35 ≤ f.length ∧ readU8 f 34 = some st ∧ extractLocfam p f =
                      { recCourse p f (bytes8List b) q lat lon alt spd course with
                        ts := some (tsFields [yy, mo, dd, hh, mi, ss]),
                        st := some (stFields st lat lon) }))))))))) := by
  by_cases h12 : f.length < 12
  · exact .inl ⟨h12, locfam_short h12⟩
  obtain ⟨b, hb⟩ := slice_eight (f := f) (off := 4) (by omega)
  refine .inr ⟨b, by omega, hb, ?_⟩
  by_cases h14 : f.length < 14
  · exact .inl ⟨h14, locfam_noSeq hb h14⟩
  obtain ⟨-, -, q, -, -, -, hq⟩ := readU16be_eq (f := f) (off := 12) (by omega)
  refine .inr ⟨q, by omega, hq, ?_⟩
  by_cases h28 : f.length < 28
  · exact .inl ⟨h28, locfam_noFix hb hq h28⟩
  obtain ⟨-, -, -, -, lat, -, -, -, -, -, hlat⟩ := readU32be_eq (f := f) (off := 14) (by omega)
  obtain ⟨-, -, -, -, lon, -, -, -, -, -, hlon⟩ := readU32be_eq (f := f) (off := 18) (by omega)
  obtain ⟨-, -, alt, -, -, -, halt⟩ := readU16be_eq (f := f) (off := 22) (by omega)
  obtain ⟨-, -, spd, -, -, -, hspd⟩ := readU16be_eq (f := f) (off := 24) (by omega)
  obtain ⟨-, -, course, -, -, -, hcrs⟩ := readU16be_eq (f := f) (off := 26) (by omega)
  have hfix := locfam_fix (p := p) hb hq hlat hlon halt hspd hcrs (by omega)
  refine .inr ⟨lat, lon, alt, spd, course, by omega, hlat, hlon, halt, hspd, hcrs, ?_⟩
  by_cases h34 : f.length < 34
  · exact .inl ⟨h34, hfix.trans (tail_noTs h34)⟩
  obtain ⟨yy, mo, dd, hh, mi, ss, ht⟩ := slice_six (f := f) (off := 28) (by omega)
  refine .inr ⟨yy, mo, dd, hh, mi, ss, by omega, ht, ?_⟩
  by_cases h35 : f.length < 35
  · exact .inl ⟨h35, hfix.trans (tail_noStatus ht h35)⟩
  have hst := readU8_eq (getElem?_eq_byteAt (f := f) (off := 34) (by omega))
  exact .inr ⟨_, by omega, hst, hfix.trans (tail_full ht hst)⟩

/-- The heartbeat path, by length (R196). -/
theorem heartbeat_cases (p : Params) (f : Bytes) :
    (f.length < 12 ∧ extractHeartbeat p f = { recHeader .heartbeat f with err := .outOfRange }) ∨
    (∃ b : Bytes8, 12 ≤ f.length ∧ slice f 4 8 = some (bytes8List b) ∧ extractHeartbeat p f =
      { recHeader .heartbeat f with ident := some (identFields p (bytes8List b)) }) := by
  by_cases h12 : f.length < 12
  · refine .inl ⟨h12, ?_⟩
    rw [extractHeartbeat, slice_of_lt (by simpa [offId] using h12)]
    rfl
  · obtain ⟨b, hb⟩ := slice_eight (f := f) (off := 4) (by omega)
    exact .inr ⟨b, by omega, hb, by rw [extractHeartbeat, offId, hb]⟩

theorem tsFields_six (yy mo dd hh mi ss : Byte) :
    tsFields [yy, mo, dd, hh, mi, ss] = ⟨yy, mo, dd, hh, mi, ss, 2000 + yy.setWidth 12⟩ := rfl

/-- `year` is `2000 + ts_yy` and cannot overflow (R10, R201). -/
theorem year_toNat (yy : Byte) : (2000 + yy.setWidth 12 : BitVec 12).toNat = 2000 + yy.toNat := by
  have := yy.isLt
  have h2000 : (2000 : BitVec 12).toNat = 2000 := by decide
  rw [BitVec.toNat_add, BitVec.toNat_setWidth, h2000]
  omega

/-! Coordinates (R199). -/

/-- `udeg` fits in 32 bits, so no wrap-around happens (R10). -/
theorem microDegrees_toNat (raw : BitVec 32) : (microDegrees raw).toNat = (10 * raw.toNat + 9) / 18 := by
  have := raw.isLt
  simp only [microDegrees, BitVec.toNat_ofNat]
  omega

theorem degrees_mul (raw : BitVec 32) (neg : Bool) :
    degrees raw neg * 1800000 = if neg then -(raw.toNat : Rat) else (raw.toNat : Rat) := by
  rw [degrees, Rat.mkRat_eq_div]
  cases neg <;> simp [coordDivisor]

end Sys2Proof.Machine
end

