-- ==== Sys2Proof/Laws/PerInstr.lean ====
section
/-! SUPPORT. Statements for all instructions, one lemma per constructor. -/

namespace Sys2Proof.Laws

/-- The bytes of a well-formed instruction, in its format, decode to it. -/
def RoundTrip.Statement (i : Instr) : Prop := i.wf = true → decode i.format i.bytes = .ok i

namespace RoundTrip

theorem rsmFeed (chunk : Bytes) : Statement (.rsmFeed chunk) := fun _ => by
  simp [Instr.format, Instr.bytes, decode, decodeOp_opByte, decodeOperands]

theorem rsmClear : Statement .rsmClear := fun _ => by decide

theorem rsmStatus : Statement .rsmStatus := fun _ => by decide

theorem crcStep (reg : BitVec 16) (b : Byte) : Statement (.crcStep reg b) := fun _ => by
  have := Machine.beValue_be16Bytes reg
  simp only [Machine.be16Bytes] at this
  simp [Instr.format, Instr.bytes, decode, decodeOp_opByte, decodeOperands, Machine.be16Bytes, this]

theorem crc16 (m : Bytes) : Statement (.crc16 m) := fun _ => by
  simp [Instr.format, Instr.bytes, decode, decodeOp_opByte, decodeOperands]

theorem xorSum (src : Bytes) (lo hi : Nat) : Statement (.xorSum src lo hi) := fun _ => by
  simp [Instr.format, Instr.bytes, decode, decodeOp_opByte, decodeOperands]

theorem xorVerify (f : Bytes) : Statement (.xorVerify f) := fun _ => by
  simp [Instr.format, Instr.bytes, decode, decodeOp_opByte, decodeOperands]

theorem rdU8 (src : Bytes) (off : Nat) : Statement (.rdU8 src off) := fun _ => by
  simp [Instr.format, Instr.bytes, decode, decodeOp_opByte, decodeOperands]

theorem rdU16be (src : Bytes) (off : Nat) : Statement (.rdU16be src off) := fun _ => by
  simp [Instr.format, Instr.bytes, decode, decodeOp_opByte, decodeOperands]

theorem rdU32be (src : Bytes) (off : Nat) : Statement (.rdU32be src off) := fun _ => by
  simp [Instr.format, Instr.bytes, decode, decodeOp_opByte, decodeOperands]

theorem rdBytes (src : Bytes) (off n : Nat) : Statement (.rdBytes src off n) := fun _ => by
  simp [Instr.format, Instr.bytes, decode, decodeOp_opByte, decodeOperands]

theorem idDecode (b : Bytes8) : Statement (.idDecode b) := fun _ => by
  simp [Instr.format, Instr.bytes, decode, decodeOp_opByte, decodeOperands, Machine.bytes8List]

theorem fxClassify (f : Bytes) : Statement (.fxClassify f) := fun _ => by
  simp [Instr.format, Instr.bytes, decode, decodeOp_opByte, decodeOperands]

theorem fxExtract (f : Bytes) : Statement (.fxExtract f) := fun _ => by
  simp [Instr.format, Instr.bytes, decode, decodeOp_opByte, decodeOperands]

theorem statusDecode (st : Byte) : Statement (.statusDecode st) := fun _ => by
  simp [Instr.format, Instr.bytes, decode, decodeOp_opByte, decodeOperands]

theorem coordConvert (raw : BitVec 32) (neg : Bool) (axis : Axis) : Statement (.coordConvert raw neg axis) :=
  fun _ => by
    have := Machine.beValue_be32Bytes raw
    simp only [Machine.be32Bytes] at this
    simp [Instr.format, Instr.bytes, decode, decodeOp_opByte, decodeOperands, Machine.be32Bytes, this]

theorem ackBuild (t s0 s1 : Byte) : Statement (.ackBuild t s0 s1) := fun _ => by
  simp [Instr.format, Instr.bytes, decode, decodeOp_opByte, decodeOperands]

theorem ackFromframe (f : Bytes) : Statement (.ackFromframe f) := fun _ => by
  simp [Instr.format, Instr.bytes, decode, decodeOp_opByte, decodeOperands]

theorem frameLocfam (lenByte : Byte) (rest : Bytes) : Statement (.frameLocfam lenByte rest) := fun _ => by
  simp [Instr.format, Instr.bytes, decode, decodeFrame_cons]

theorem frameHeartbeat (lenByte : Byte) (rest : Bytes) : Statement (.frameHeartbeat lenByte rest) := fun _ => by
  simp [Instr.format, Instr.bytes, decode, decodeFrame_cons]

theorem frameUnknown (lenByte msgType : Byte) (rest : Bytes) : Statement (.frameUnknown lenByte msgType rest) :=
  fun h => by
    simp only [Instr.wf, unknownTypeOk, Bool.and_eq_true, bne_iff_ne] at h
    simp only [Instr.format, Instr.bytes, decode, decodeFrame_cons]
    rw [if_pos (by decide), if_neg h.1, if_neg h.2]

theorem frameRejected (f : Bytes) : Statement (.frameRejected f) := fun h => by
  simp only [Instr.wf] at h
  simp only [Instr.format, Instr.bytes, decode]
  match f, h with
  | [], _ => rfl
  | [_], _ => rfl
  | [_, _], _ => rfl
  | [_, _, _], _ => rfl
  | b0 :: b1 :: b2 :: b3 :: r, h =>
    rw [decodeFrame_cons, if_neg]
    rintro ⟨rfl, rfl⟩
    simp [rejectedOk] at h

theorem frameAck (t s0 s1 : Byte) (c : BitVec 16) : Statement (.frameAck t s0 s1 c) := fun _ => decodeAck_bytes t s0 s1 c

end RoundTrip

end Sys2Proof.Laws
end

