-- ==== Sys2Proof/Laws/Run.lean ====
section
/-! SUPPORT. Runs of steps: how a run begins, its prefixes, and what it does to the output port. -/

namespace Sys2Proof.Machine

theorem run_zero (s : State) : Sys2Proof.core.run 0 s = .next s := rfl

/-- A run of one more step is a step and a run, on any machine. -/
theorem host_run_succ_eq_next {M : Host.Core} {k : Nat} {s t : M.State} :
    M.run (k + 1) s = .next t ↔ ∃ u, M.step s = .next u ∧ M.run k u = .next t := by
  have hrun : M.run (k + 1) s =
      match M.step s with
      | .next u => M.run k u
      | .fault f => .fault f
      | .refused r => .refused r := rfl
  rw [hrun]
  cases M.step s <;> simp

theorem run_succ_eq_next {k : Nat} {s t : State} :
    Sys2Proof.core.run (k + 1) s = .next t ↔ ∃ u, step s = .next u ∧ Sys2Proof.core.run k u = .next t :=
  host_run_succ_eq_next (M := Sys2Proof.core)

/-- Every prefix of a run that comes to a state comes to a state. -/
theorem run_prefix {k j : Nat} {s t : State} (h : Sys2Proof.core.run k s = .next t) (hj : j ≤ k) :
    ∃ u, Sys2Proof.core.run j s = .next u := by
  induction k generalizing s j with
  | zero => exact ⟨s, by rw [Nat.le_zero.mp hj, run_zero]⟩
  | succ k ih =>
    cases j with
    | zero => exact ⟨s, rfl⟩
    | succ j =>
      obtain ⟨u, hs, hr⟩ := run_succ_eq_next.mp h
      obtain ⟨v, hv⟩ := ih hr (Nat.le_of_succ_le_succ hj)
      exact ⟨v, run_succ_eq_next.mpr ⟨u, hs, hv⟩⟩

/-- A run has faulted when it starts faulted, or when the run after its first step has. -/
theorem runFaulted_succ {k : Nat} {s u : State} (h : step s = .next u) :
    RunFaulted (k + 1) s ↔ s.ovf = true ∨ RunFaulted k u := by
  constructor
  · rintro ⟨j, t, hj, hr, hf⟩
    cases j with
    | zero => rw [run_zero] at hr; cases hr; exact .inl hf
    | succ j =>
      obtain ⟨v, hv, hr⟩ := run_succ_eq_next.mp hr
      rw [h] at hv; cases hv
      exact .inr ⟨j, t, Nat.le_of_succ_le_succ hj, hr, hf⟩
  · rintro (hf | ⟨j, t, hj, hr, hf⟩)
    · exact ⟨0, s, Nat.zero_le _, rfl, hf⟩
    · exact ⟨j + 1, t, Nat.succ_le_succ hj, run_succ_eq_next.mpr ⟨u, h, hr⟩, hf⟩

theorem runFaulted_zero {s : State} : RunFaulted 0 s ↔ s.ovf = true := by
  constructor
  · rintro ⟨j, t, hj, hr, hf⟩
    rw [Nat.le_zero.mp hj, run_zero] at hr; cases hr; exact hf
  · exact fun h => ⟨0, s, Nat.le_refl _, rfl, h⟩

end Sys2Proof.Machine
end

