-- ==== Sys2Proof/Tests/Slice0.lean ====
section
/-! SUPPORT. The model's own tests. Expected results are transcribed from spec/95_test_vectors.md (the vector's name
stands in each docstring) or from the rule named there; words are written out from the tables of spec/30_encoding.md.
The theorems `witness_…` show, for each statement of Certificates/Slice0/Obligations.lean that has hypotheses, concrete
states and operands that meet them, at the boundary values of each clause. -/

/- One theorem at a time: a kernel evaluation waits for all theorems before it, and many waiting at once fill the
memory. -/
set_option Elab.async false

namespace Sys2Proof.Tests

open Sys2Proof Sys2Proof.Machine

/-! Helpers. -/

/-- The instance of default parameters whose buffer is `buf`. -/
def on (buf : Bytes) : State := { State.reset with buf := buf }

/-- The same with a finite capacity. -/
def capped (cap : Nat) (buf : Bytes) : State :=
  { State.create { Params.default with bufCap := some cap } with buf := buf }

/-- An instance with another start of the XOR span. -/
def spanFrom (x : XorFrom) : State := State.create { Params.default with xorFrom := x }

/-- The next state of an outcome, if there is one. -/
def nextOf (o : Outcome) : Option State :=
  match o with
  | .next t => some t
  | .fault _ => none
  | .refused _ => none

/-- The refusal of an outcome, if there is one. -/
def refusalOf (o : Outcome) : Option Refusal :=
  match o with
  | .next _ => none
  | .fault _ => none
  | .refused r => some r

/-- What an instruction delivers on a new instance. -/
def gives (i : Instr) : Option (List Result) := (nextOf (exec i State.reset)).map (·.out)

/-- The buffer, the flag and the last result after an instruction. -/
def after (i : Instr) (s : State) : Option (Bytes × Bool × Option Result) :=
  (nextOf (exec i s)).map (fun t => (t.buf, t.ovf, t.out.getLast?))

theorem eq_next_of {o : Outcome} {t : State} (h : nextOf o = some t) : o = .next t := by
  cases o <;> simp_all [nextOf]

/-- `F38` of 95_test_vectors.md section 2.4. -/
def f38 : Bytes :=
  [0x78, 0x78, 0x21, 0x01, 0x03, 0x57, 0x71, 0x89, 0x51, 0x22, 0x72, 0x51, 0x00, 0x08] ++
  [0x00, 0x60, 0x3a, 0x0c, 0x08, 0x8b, 0x2f, 0x40, 0x00, 0x78, 0x01, 0xc4, 0x01, 0x13] ++
  [0x18, 0x0b, 0x0a, 0x0e, 0x1e, 0x2d, 0x90, 0x75, 0x0d, 0x0a]

/-- `L18` of 95_test_vectors.md section 2.4. -/
def l18 : Bytes :=
  [0x78, 0x78, 0x0d, 0x01, 0x03, 0x57, 0x71, 0x89, 0x51, 0x22, 0x72, 0x51, 0x00, 0x08, 0x00, 0xf8, 0x0d, 0x0a]

/-- `H17` of 95_test_vectors.md section 2.4. -/
def h17 : Bytes :=
  [0x78, 0x78, 0x0c, 0x04, 0x03, 0x57, 0x71, 0x89, 0x51, 0x22, 0x72, 0x51, 0x00, 0x09, 0xfd, 0x0d, 0x0a]

/-- `U9` of 95_test_vectors.md section 2.4. -/
def u9 : Bytes := [0x78, 0x78, 0x05, 0x16, 0x00, 0x0a, 0x19, 0x0d, 0x0a]

/-- The identifier bytes of the reference frames. -/
def id8 : Bytes8 := ⟨0x03, 0x57, 0x71, 0x89, 0x51, 0x22, 0x72, 0x51⟩

/-- Its 16 digits under `LOW_FIRST` (V5.1). -/
def digits : IdDigits := ⟨[3, 0, 7, 5, 1, 7, 9, 8, 1, 5, 2, 2, 2, 7, 1, 5], false⟩

/-! WellFormed: a term that each check refuses. -/

theorem test_wf_unknown_refuses_locfam : (Instr.frameUnknown 0x05 0x01 []).wf = false := by decide
theorem test_wf_unknown_refuses_heartbeat : (Instr.frameUnknown 0x05 0x04 []).wf = false := by decide
theorem test_wf_rejected_refuses_marker : (Instr.frameRejected [0x78, 0x78, 0x05, 0x16]).wf = false := by decide
theorem test_wf_unknown_accepts : (Instr.frameUnknown 0x05 0x16 []).wf = true := by decide
theorem test_wf_rejected_accepts_short : (Instr.frameRejected [0x78, 0x78, 0x05]).wf = true := by decide
theorem test_wf_rejected_accepts_other : (Instr.frameRejected [0x79, 0x78, 0x05, 0x01]).wf = true := by decide

/-! Decoding: words written out from R96, R94 and R88; the operand bytes are laid out as log entry 3 says. -/

theorem test_decode_rsmFeed : decode .op5 [0b00000000, 0x78, 0x78] = .ok (.rsmFeed [0x78, 0x78]) := by decide
theorem test_decode_rsmClear : decode .op5 [0b00000001] = .ok .rsmClear := by decide
theorem test_decode_rsmStatus : decode .op5 [0b00000010] = .ok .rsmStatus := by decide
theorem test_decode_crcStep : decode .op5 [0b00000100, 0xff, 0xfe, 0x05] = .ok (.crcStep 0xFFFE 0x05) := by decide
theorem test_decode_crc16 : decode .op5 [0b00000101, 0x31] = .ok (.crc16 [0x31]) := by decide
theorem test_decode_xorSum :
    decode .op5 [0b00001000, 0x02, 0x06, 0x78, 0x79] = .ok (.xorSum [0x78, 0x79] 2 6) := by decide
theorem test_decode_xorVerify : decode .op5 [0b00001001, 0x0d, 0x0a] = .ok (.xorVerify [0x0d, 0x0a]) := by decide
theorem test_decode_rdU8 : decode .op5 [0b00001100, 0x25, 0x0a] = .ok (.rdU8 [0x0a] 37) := by decide
theorem test_decode_rdU16be : decode .op5 [0b00001101, 0x01, 0x00, 0x08] = .ok (.rdU16be [0x00, 0x08] 1) := by decide
theorem test_decode_rdU32be : decode .op5 [0b00001110, 0xac, 0x02, 0x60] = .ok (.rdU32be [0x60] 300) := by decide
theorem test_decode_rdBytes :
    decode .op5 [0b00001111, 0x1c, 0x06, 0x18] = .ok (.rdBytes [0x18] 28 6) := by decide
theorem test_decode_idDecode :
    decode .op5 [0b00010000, 0x03, 0x57, 0x71, 0x89, 0x51, 0x22, 0x72, 0x51] = .ok (.idDecode id8) := by decide
theorem test_decode_fxClassify : decode .op5 [0b00010001, 0x78] = .ok (.fxClassify [0x78]) := by decide
theorem test_decode_fxExtract : decode .op5 [0b00010010, 0x79] = .ok (.fxExtract [0x79]) := by decide
theorem test_decode_statusDecode : decode .op5 [0b00010011, 0x97] = .ok (.statusDecode 0x97) := by decide
theorem test_decode_coordConvert :
    decode .op5 [0b00010100, 0x00, 0x60, 0x3a, 0x0c, 0x01, 0x00] = .ok (.coordConvert 6306316 true .lat) := by decide
theorem test_decode_ackBuild :
    decode .op5 [0b00011000, 0x01, 0x00, 0x08] = .ok (.ackBuild 0x01 0x00 0x08) := by decide
theorem test_decode_ackFromframe : decode .op5 [0b00011001, 0x78] = .ok (.ackFromframe [0x78]) := by decide
theorem test_decode_frameLocfam :
    decode .frame32 [0b01111000, 0b01111000, 0x21, 0b00000001, 0x03] = .ok (.frameLocfam 0x21 [0x03]) := by decide
theorem test_decode_frameHeartbeat :
    decode .frame32 [0b01111000, 0b01111000, 0x0c, 0b00000100] = .ok (.frameHeartbeat 0x0c []) := by decide
theorem test_decode_frameUnknown :
    decode .frame32 [0b01111000, 0b01111000, 0x05, 0b00010110] = .ok (.frameUnknown 0x05 0x16 []) := by decide
theorem test_decode_frameRejected :
    decode .frame32 [0b01111001, 0b01111000, 0x05, 0b00000001] =
      .ok (.frameRejected [0x79, 0x78, 0x05, 0x01]) := by decide
theorem test_decode_frameAck :
    decode .ack80 [0b01111000, 0b01111000, 0b00000101, 0x16, 0xab, 0xcd, 0x97, 0x7b, 0b00001101, 0b00001010] =
      .ok (.frameAck 0x16 0xab 0xcd 0x977B) := by decide
theorem test_decode_rejects :
    decode .op5 [] = .rejected .noOperation ∧ decode .op5 [0x03] = .rejected .reservedOp ∧
    decode .op5 [0x01, 0x00] = .rejected .badOperands ∧
    decode .ack80 [0x78, 0x78, 0x06, 0x01, 0x00, 0x08, 0x44, 0x1d, 0x0d, 0x0a] = .rejected .notAckPattern := by decide

/-! The words of spec/opcode_table.json: what the decoder reads, and that the first step after reset runs it. -/

/-- The rows of U1, U2, U3 and the first reader: bits, match, and the instruction that stands for the row. -/
def tableRowsLow : List (Nat × Nat × Instr) :=
  [(8, 0x00, .rsmFeed (List.replicate 16 0)), (8, 0x01, .rsmClear), (8, 0x02, .rsmStatus), (8, 0x04, .crcStep 0 0),
   (8, 0x05, .crc16 (List.replicate 16 0)), (8, 0x08, .xorSum (List.replicate 14 0) 0 0),
   (8, 0x09, .xorVerify (List.replicate 16 0)), (8, 0x0C, .rdU8 (List.replicate 15 0) 0)]

/-- The other rows of U4. -/
def tableRowsMid : List (Nat × Nat × Instr) :=
  [(8, 0x0D, .rdU16be (List.replicate 15 0) 0), (8, 0x0E, .rdU32be (List.replicate 15 0) 0),
   (8, 0x0F, .rdBytes (List.replicate 14 0) 0 0), (8, 0x10, .idDecode ⟨0, 0, 0, 0, 0, 0, 0, 0⟩),
   (8, 0x11, .fxClassify (List.replicate 16 0)), (8, 0x12, .fxExtract (List.replicate 16 0)),
   (8, 0x13, .statusDecode 0), (8, 0x14, .coordConvert 0 false .lat)]

/-- The rows of U5 and the frames. -/
def tableRowsHigh : List (Nat × Nat × Instr) :=
  [(8, 0x18, .ackBuild 0 0 0), (8, 0x19, .ackFromframe (List.replicate 16 0)),
   (32, 0x78780001, .frameLocfam 0 (List.replicate 34 0)), (32, 0x78780004, .frameHeartbeat 0 (List.replicate 34 0)),
   (32, 0x78780000, .frameUnknown 0 0 (List.replicate 34 0)), (32, 0x00000000, .frameRejected (List.replicate 38 0)),
   (80, 0x78780500000000000d0a, .frameAck 0 0 0 0)]

/-- The 23 rows. -/
def tableRows : List (Nat × Nat × Instr) := tableRowsLow ++ (tableRowsMid ++ tableRowsHigh)

theorem test_table_words_decode : ∀ r ∈ tableRows, decodeTableWord r.1 r.2.1 = some r.2.2 := by decide +kernel

theorem test_table_words_run :
    ∀ r ∈ tableRows, nextOf (step (State.reset.withFetchWord r.1 r.2.1)) = nextOf (exec r.2.2 State.reset) ∧
      (nextOf (exec r.2.2 State.reset)).isSome = true := by decide +kernel

/-! Reset and the step (R32, R270). -/

theorem test_reset : State.reset.buf = [] ∧ State.reset.ovf = false ∧ rsmState State.reset.buf = .empty := by decide
theorem test_step_idle : nextOf (step State.reset) = some State.reset := by decide

/-! U1 REASM: V1, P1 to P5. -/

/-- V1.3 (no start marker: the final `78` goes too), V1.8 (second half of an end marker), V1.12 (`0d 0a` at offsets
3..4), V1.14 (a `78` before the frame), P2 step 1 (garbage, two frames and the beginning of a third). -/
theorem test_feed_scans :
    after (.rsmFeed [0x01, 0x02, 0x03, 0x78]) State.reset = some ([], false, some (.frames [])) ∧
    after (.rsmFeed [0x0a]) (on (u9.take 8)) = some ([], false, some (.frames [u9])) ∧
    after (.rsmFeed [0x78, 0x78, 0x00, 0x0d, 0x0a]) State.reset =
      some ([0x78, 0x78, 0x00, 0x0d, 0x0a], false, some (.frames [])) ∧
    after (.rsmFeed (0x00 :: 0x78 :: u9)) State.reset = some ([], false, some (.frames [0x78 :: u9])) ∧
    after (.rsmFeed ([0xaa, 0x0d, 0x0a, 0x55] ++ u9 ++ h17 ++ [0x00, 0xff] ++ f38.take 10)) State.reset =
      some (f38.take 10, false, some (.frames [u9, h17])) :=
  ⟨by decide +kernel, by decide +kernel, by decide +kernel, by decide +kernel, by decide +kernel⟩
/-- P5, steps 2 (10 + 7 = 17 > 16) and 3. -/
theorem test_feed_overflow :
    after (.rsmFeed [0x72, 0x51, 0x00, 0x08, 0x00, 0x60, 0x3a]) (capped 16 (f38.take 10)) =
      some (f38.take 10, true, some .overflow) ∧
    refusalOf (exec (.rsmFeed [0x0d, 0x0a]) { capped 16 (f38.take 10) with ovf := true }) =
      some .feedAfterOverflow := by decide +kernel
/-- P5, step 5. -/
theorem test_clear : after .rsmClear { capped 16 (f38.take 10) with ovf := true } = some ([], false, none) := by
  decide +kernel
/-- P5, step 4. -/
theorem test_status_after_overflow :
    after .rsmStatus { capped 16 (f38.take 10) with ovf := true } =
      some (f38.take 10, true, some (.status ⟨.accumulating, 10, true⟩)) := by decide +kernel
/-- P3, step 7. -/
theorem test_status_empty : after .rsmStatus State.reset = some ([], false, some (.status ⟨.empty, 0, false⟩)) := by
  decide +kernel

/-! U2 CRC: V2. -/

/-- The trace of V2.3. -/
theorem test_crcStep : gives (.crcStep 0xFFFF 0x05) = some [.crcReg 0x582A] := by decide +kernel
/-- The trace of V2.3, third byte. -/
theorem test_crcStep_zero_byte : gives (.crcStep 0x9F89 0x00) = some [.crcReg 0x1956] := by decide +kernel
/-- V2.1. -/
theorem test_crc16_catalogue :
    gives (.crc16 [0x31, 0x32, 0x33, 0x34, 0x35, 0x36, 0x37, 0x38, 0x39]) = some [.crc 0x906E [0x90, 0x6e]] := by
  decide +kernel
/-- V2.4. -/
theorem test_crc16_empty : gives (.crc16 []) = some [.crc 0x0000 [0x00, 0x00]] := by decide +kernel

/-! U3 XORV: V3. -/

/-- V3.1. -/
theorem test_xorSum : gives (.xorSum u9 2 6) = some [.xorByte 0x19] := by decide +kernel
/-- V3.3. -/
theorem test_xorSum_bad_range : refusalOf (exec (.xorSum [0x01, 0x02] 0 3) State.reset) = some .badRange := by
  decide +kernel
/-- V3.5. -/
theorem test_xorVerify_mismatch :
    gives (.xorVerify [0x78, 0x78, 0x05, 0x16, 0x00, 0x0b, 0x19, 0x0d, 0x0a]) = some [.chk ⟨0x19, 0x18, false⟩] := by
  decide +kernel
/-- V3.11 and V3.10: the three starts of the span; a span that would start after the checksum byte. -/
theorem test_xorVerify_spans :
    ((nextOf (exec (.xorVerify f38) (spanFrom .lengthByte))).map (·.out) = some [.chk ⟨0x75, 0x75, true⟩]) ∧
    ((nextOf (exec (.xorVerify f38) (spanFrom .messageType))).map (·.out) = some [.chk ⟨0x75, 0x54, false⟩]) ∧
    ((nextOf (exec (.xorVerify f38) (spanFrom .body))).map (·.out) = some [.chk ⟨0x75, 0x55, false⟩]) ∧
    ((nextOf (exec (.xorVerify [0x78, 0x78, 0x07, 0x08, 0x0d, 0x0a]) (spanFrom .body))).map (·.out) =
      some [.chk ⟨0x08, 0x00, false⟩]) := by decide +kernel

/-! U4 FEXT: V5, V4. -/

/-- V5.7. -/
theorem test_rdU8 : gives (.rdU8 f38 37) = some [.u8 0x0a] ∧ gives (.rdU8 f38 38) = some [.outOfRange] := by
  decide +kernel
/-- V5.3, V5.4. -/
theorem test_rdU16be :
    gives (.rdU16be [0x01, 0xc4] 0) = some [.u16 452] ∧ gives (.rdU16be [0x00, 0x08] 1) = some [.outOfRange] := by
  decide +kernel
/-- V5.6. -/
theorem test_rdU32be :
    gives (.rdU32be f38 34) = some [.u32 2423590154] ∧ gives (.rdU32be f38 35) = some [.outOfRange] := by
  decide +kernel
/-- V5.8. -/
theorem test_rdBytes :
    gives (.rdBytes f38 28 6) = some [.bytes [0x18, 0x0b, 0x0a, 0x0e, 0x1e, 0x2d]] ∧
    gives (.rdBytes f38 33 6) = some [.outOfRange] := by decide +kernel
/-- V5.2. -/
theorem test_idDecode_nondecimal :
    gives (.idDecode ⟨0x1a, 0, 0, 0, 0, 0, 0, 0xf9⟩) =
      some [.digits ⟨[10, 1, 0, 0, 0, 0, 0, 0, 0, 0, 0, 0, 0, 0, 9, 15], true⟩] := by decide +kernel
/-- V5.1 with `HIGH_FIRST`. -/
theorem test_idDecode_high_first :
    (nextOf (exec (.idDecode id8) (State.create { Params.default with idDigitOrder := .highFirst }))).map (·.out) =
      some [.digits ⟨[0, 3, 5, 7, 7, 1, 8, 9, 5, 1, 2, 2, 7, 2, 5, 1], false⟩] := by decide +kernel
/-- V4.3. -/
theorem test_fxClassify :
    gives (.fxClassify f38) = some [.cls .locfam] ∧ gives (.fxClassify h17) = some [.cls .heartbeat] ∧
    gives (.fxClassify u9) = some [.cls .unknown] ∧
    gives (.fxClassify [0x79, 0x78, 0x05, 0x01]) = some [.cls .rejected] ∧
    gives (.fxClassify [0x78, 0x78, 0x05]) = some [.cls .rejected] := by decide +kernel
/-- V4.1. -/
theorem test_fxExtract_full :
    gives (.fxExtract f38) = some [.record
      { cls := .locfam, err := .noError, flen := 38, gpsReady := true, hdr := some ⟨0x21, 0x01⟩,
        ident := some ⟨[0x03, 0x57, 0x71, 0x89, 0x51, 0x22, 0x72, 0x51], digits⟩, seq := some 8,
        latRaw := some 6306316, lonRaw := some 143339328, alt := some 120, spdRaw := some 452, course := some 275,
        ts := some ⟨24, 11, 10, 14, 30, 45, 2024⟩,
        st := some ⟨0x90, ⟨false, false, false, 9⟩, 3503509, 79632960, .n, .e⟩ }] := by decide +kernel
/-- V4.8, 34 bytes (but for the length byte): the status read fails; hour, minute and second are the checksum and the
end marker. -/
theorem test_fxExtract_34 :
    (nextOf (exec (.fxExtract (f38.take 31 ++ [0xe4, 0x0d, 0x0a])) State.reset)).map (·.out) = some [.record
      { cls := .locfam, err := .outOfRange, flen := 34, gpsReady := true, hdr := some ⟨0x21, 0x01⟩,
        ident := some ⟨[0x03, 0x57, 0x71, 0x89, 0x51, 0x22, 0x72, 0x51], digits⟩, seq := some 8,
        latRaw := some 6306316, lonRaw := some 143339328, alt := some 120, spdRaw := some 452, course := some 275,
        ts := some ⟨24, 11, 10, 228, 13, 10, 2024⟩, st := none }] := by decide +kernel
/-- V5.9. -/
theorem test_statusDecode :
    gives (.statusDecode 0x97) = some [.statusBits ⟨true, true, true, 9⟩] ∧
    gives (.statusDecode 0x08) = some [.statusBits ⟨false, false, false, 0⟩] := by decide +kernel
/-- S4. -/
theorem test_coordConvert_south :
    gives (.coordConvert 6306316 true .lat) =
      some [.coord ⟨true, 6306316, .s, -(6306316 / 1800000), 3503509⟩] := by decide +kernel
/-- V5.14 and V5.13. -/
theorem test_coordConvert_east :
    gives (.coordConvert 143339328 false .lon) =
      some [.coord ⟨false, 143339328, .e, 7963296 / 100000, 79632960⟩] ∧
    (convertCoord 0xFFFFFFFF false .lat).udeg = 2386092942 := by decide +kernel

/-! U5 ACK: V6. -/

/-- V6.3. -/
theorem test_ackBuild :
    gives (.ackBuild 0x16 0xab 0xcd) =
      some [.ack [0x78, 0x78, 0x05, 0x16, 0xab, 0xcd, 0x97, 0x7b, 0x0d, 0x0a]] := by decide +kernel
/-- V6.5. -/
theorem test_ackFromframe :
    gives (.ackFromframe h17) =
      some [.ack [0x78, 0x78, 0x05, 0x04, 0x00, 0x09, 0x6c, 0x29, 0x0d, 0x0a]] := by decide +kernel
/-- V6.6. -/
theorem test_ackFromframe_short : refusalOf (exec (.ackFromframe u9) State.reset) = some .ackShortFrame := by
  decide +kernel

/-! The wire format: V4.4 to V4.7, V6.1. -/

/-- V4.4: `L18`, its header apart. -/
theorem test_frameLocfam :
    gives (.frameLocfam 0x0d (l18.drop 4)) = some [.record
      { cls := .locfam, err := .noError, flen := 18, gpsReady := false, hdr := some ⟨0x0d, 0x01⟩,
        ident := some ⟨[0x03, 0x57, 0x71, 0x89, 0x51, 0x22, 0x72, 0x51], digits⟩, seq := some 8,
        latRaw := none, lonRaw := none, alt := none, spdRaw := none, course := none, ts := none, st := none }] := by
  decide +kernel
/-- V4.5: `H17`, its header apart. -/
theorem test_frameHeartbeat :
    gives (.frameHeartbeat 0x0c (h17.drop 4)) = some [.record
      { cls := .heartbeat, err := .noError, flen := 17, gpsReady := false, hdr := some ⟨0x0c, 0x04⟩,
        ident := some ⟨[0x03, 0x57, 0x71, 0x89, 0x51, 0x22, 0x72, 0x51], digits⟩, seq := none,
        latRaw := none, lonRaw := none, alt := none, spdRaw := none, course := none, ts := none, st := none }] := by
  decide +kernel
/-- V4.6: `U9`, its header apart. -/
theorem test_frameUnknown :
    gives (.frameUnknown 0x05 0x16 (u9.drop 4)) = some [.record
      { cls := .unknown, err := .noError, flen := 9, gpsReady := false, hdr := some ⟨0x05, 0x16⟩, ident := none,
        seq := none, latRaw := none, lonRaw := none, alt := none, spdRaw := none, course := none, ts := none,
        st := none }] := by decide +kernel
/-- V4.7. -/
theorem test_frameRejected :
    (nextOf (exec (.frameRejected [0x79, 0x78, 0x05, 0x01, 0x00, 0x0d, 0x0a]) State.reset)).map
        (fun t => t.out.map Result.condition) = some [.invalidStartMarker] ∧
    (nextOf (exec (.frameRejected [0x78, 0x78, 0x05]) State.reset)).map
        (fun t => t.out.map Result.condition) = some [.outOfRange] := by decide +kernel
/-- V6.1. -/
theorem test_frameAck :
    gives (.frameAck 0x01 0x00 0x08 0x441D) =
      some [.ack [0x78, 0x78, 0x05, 0x01, 0x00, 0x08, 0x44, 0x1d, 0x0d, 0x0a]] := by decide +kernel

/-! Witnesses: states and operands that meet the hypotheses of the statements. -/

/-- A state that satisfies the invariant, from checks that compute. -/
theorem inv_of {s : State} (hb : Memory.wf s.buf = true) (hc : s.params.bufCap = none ∧ s.ovf = false) (hi : s.busy = .idle) :
    Inv s :=
  ⟨memory_wf_iff.mp hb, fun cap h => by simp [hc.1] at h, fun _ => hc.2, hi⟩

/-- The same for a finite capacity. -/
theorem inv_of_cap {s : State} {cap : Nat} (hb : Memory.wf s.buf = true)
    (hc : s.params.bufCap = some cap ∧ s.buf.length ≤ cap) (hi : s.busy = .idle) : Inv s :=
  ⟨memory_wf_iff.mp hb, fun c h => by rw [hc.1] at h; cases h; exact hc.2, fun h => by simp [hc.1] at h, hi⟩

/-- A command that feeds a chunk. -/
def feedCommand (chunk : Bytes) (ov : InProgress) : Command := ⟨.op5, 0x00 :: chunk, ov⟩

/-- StepKeepsInvariant: a feed on a waiting buffer, and one that overflows a finite one. -/
theorem witness_StepKeepsInvariant :
    (∃ s t, Inv s ∧ step s = .next t ∧ s.buf = [0x78, 0x78] ∧ t.out = [.frames [u9]]) ∧
    (∃ s t, Inv s ∧ step s = .next t ∧ t.ovf = true) :=
  ⟨⟨(on [0x78, 0x78]).issue (feedCommand (u9.drop 2) .idle), _, inv_of (by decide) ⟨rfl, rfl⟩ rfl,
      eq_next_of (t := { on [] with out := [.frames [u9]] }) (by decide +kernel), rfl, rfl⟩,
   ⟨(capped 2 [0x78, 0x78]).issue (feedCommand [0x00] .idle), _, inv_of_cap (cap := 2) (by decide) ⟨rfl, by decide⟩ rfl,
      eq_next_of (t := { capped 2 [0x78, 0x78] with ovf := true, out := [.overflow] }) (by decide +kernel), rfl⟩⟩

/-- StepPerformsDecodedInstruction: a command whose meaning completes, and one whose meaning is refused. -/
theorem witness_StepPerformsDecodedInstruction :
    (∃ (s : State) (c : Command) (rest : List Command) (i : Instr) (t : State),
      s.inq = c :: rest ∧ decode c.fmt c.bytes = .ok i ∧ exec i { s with inq := rest, busy := c.overlap } = .next t ∧
      c.overlap = .clear) ∧
    (∃ (s : State) (c : Command) (rest : List Command) (i : Instr),
      s.inq = c :: rest ∧ decode c.fmt c.bytes = .ok i ∧
      exec i { s with inq := rest, busy := c.overlap } = .refused .concurrentFeed ∧ rest ≠ []) :=
  ⟨⟨(on u9).issue ⟨.op5, [0x02], .clear⟩, ⟨.op5, [0x02], .clear⟩, [], .rsmStatus, _, rfl, by decide, rfl, rfl⟩,
   ⟨((on []).issue (feedCommand u9 .feed)).issue (feedCommand u9 .idle), feedCommand u9 .feed, [feedCommand u9 .idle],
      .rsmFeed u9, rfl, by decide, rfl, by decide⟩⟩

/-- StepOnlyAddsOneResult: the idle step, and a step that delivers. -/
theorem witness_StepOnlyAddsOneResult :
    step State.reset = .next State.reset ∧
    ∃ t, step (State.reset.issue ⟨.op5, [0x13, 0x90], .idle⟩) = .next t ∧
      t.out = [.statusBits ⟨false, false, false, 9⟩] :=
  ⟨rfl, _, eq_next_of (t := { State.reset with out := [.statusBits ⟨false, false, false, 9⟩] }) (by decide +kernel), rfl⟩

/-- ReservedSelectIsRefused: the lowest and the highest reserved value, with bits above the select set. -/
theorem witness_ReservedSelectIsRefused :
    ∀ b ∈ ([0x03, 0xFF] : List Byte),
      b.toNat % 32 ∈ [0x03, 0x06, 0x07, 0x0A, 0x0B, 0x15, 0x16, 0x17, 0x1A, 0x1B, 0x1C, 0x1D, 0x1E, 0x1F] ∧
      refusalOf (step (State.reset.issue ⟨.op5, [b, 0x00], .idle⟩)) = some .reservedOp := by decide

/-- DecodeInvertsEncode: well-formed terms of the three formats, an offset past the one-byte numbers among them. -/
theorem witness_DecodeInvertsEncode :
    ∀ i ∈ [Instr.rdBytes f38 128 16384, .frameUnknown 0xFF 0x16 u9, .frameAck 1 2 3 0xFFFF],
      i.wf = true ∧ decode (encode i).1 (encode i).2 = .ok i := by decide +kernel

/-- DecodeReadsWellFormed: bytes that decode, in each format. -/
theorem witness_DecodeReadsWellFormed :
    decode .op5 [0x01] = .ok .rsmClear ∧ decode .frame32 [0x78, 0x78] = .ok (.frameRejected [0x78, 0x78]) ∧
    decode .ack80 [0x78, 0x78, 0x05, 0x01, 0x00, 0x08, 0x44, 0x1d, 0x0d, 0x0a] = .ok (.frameAck 0x01 0x00 0x08 0x441D) := by
  decide

/-- HeaderTableClassifiesFrames: a header of each row, one bit off each, and a sequence of 3 bytes. -/
theorem witness_HeaderTableClassifiesFrames :
    (0x7878FF01 : BitVec 32).toNat = 0x78 * 2 ^ 24 + 0x78 * 2 ^ 16 + 0xFF * 2 ^ 8 + 0x01 ∧
    (0x78780004 : BitVec 32).toNat = 0x78 * 2 ^ 24 + 0x78 * 2 ^ 16 + 0x00 * 2 ^ 8 + 0x04 ∧
    (0x78780005 : BitVec 32).toNat = 0x78 * 2 ^ 24 + 0x78 * 2 ^ 16 + 0x00 * 2 ^ 8 + 0x05 ∧
    (0x78790001 : BitVec 32).toNat = 0x78 * 2 ^ 24 + 0x79 * 2 ^ 16 + 0x00 * 2 ^ 8 + 0x01 ∧
    ([0x78, 0x78, 0x05] : Bytes).length < 4 := by decide

/-- CanFeed holds with an unbounded buffer, and with a finite one that the chunk exactly fills. -/
theorem canFeed_unbounded (buf chunk : Bytes) : CanFeed (on buf) chunk :=
  ⟨rfl, rfl, fun cap h => by simp [on, Params.default] at h⟩

theorem canFeed_capped {cap : Nat} {buf chunk : Bytes} (h : buf.length + chunk.length ≤ cap) :
    CanFeed (capped cap buf) chunk :=
  ⟨rfl, rfl, fun c hc => by simp [capped] at hc; subst hc; exact h⟩

/-- FeedReassemblesBufferAndChunk: the three ways a reassembly ends (V1.3, V1.7, P2), the last in an exactly full
buffer. -/
theorem witness_FeedReassemblesBufferAndChunk :
    (CanFeed (on []) [0x01, 0x02, 0x03, 0x78] ∧ Reassembles [0x01, 0x02, 0x03, 0x78] [] []) ∧
    (CanFeed (on [0x78, 0x78]) [0x05] ∧ Reassembles [0x78, 0x78, 0x05] [] [0x78, 0x78, 0x05]) ∧
    (CanFeed (capped 11 [0x78, 0x78]) (u9.drop 2 ++ [0x78, 0x78]) ∧
      Reassembles ([0x78, 0x78] ++ (u9.drop 2 ++ [0x78, 0x78])) [u9] [0x78, 0x78]) :=
  ⟨⟨canFeed_unbounded _ _, scan_eq_iff.mp (by decide +kernel)⟩, ⟨canFeed_unbounded _ _, scan_eq_iff.mp (by decide +kernel)⟩,
   ⟨canFeed_capped (by decide), scan_eq_iff.mp (by decide +kernel)⟩⟩

/-- OverflowSetsFlagAndTakesNothing: one byte too many (P5, step 2). -/
theorem witness_OverflowSetsFlagAndTakesNothing :
    (capped 16 (f38.take 10)).busy = .idle ∧ (capped 16 (f38.take 10)).ovf = false ∧
    (capped 16 (f38.take 10)).params.bufCap = some 16 ∧
    16 < (capped 16 (f38.take 10)).buf.length + ([0x72, 0x51, 0x00, 0x08, 0x00, 0x60, 0x3a] : Bytes).length := by decide

/-- OverflowFlagIsSticky: the idle step and a status read keep it, RSM.CLEAR clears it. -/
theorem witness_OverflowFlagIsSticky :
    (∃ s t : State, s.ovf = true ∧ step s = .next t ∧
      ∀ c rest, s.inq = c :: rest → decode c.fmt c.bytes ≠ .ok .rsmClear) ∧
    (∃ (s t : State) (c : Command), s.ovf = true ∧ s.inq = [c] ∧ decode c.fmt c.bytes = .ok .rsmStatus ∧
      step s = .next t) ∧
    (∃ (s t : State) (c : Command), s.ovf = true ∧ s.inq = [c] ∧ decode c.fmt c.bytes = .ok .rsmClear ∧
      step s = .next t) :=
  ⟨⟨{ capped 2 [] with ovf := true }, { capped 2 [] with ovf := true }, rfl, rfl, fun _ _ h => nomatch h⟩,
   ⟨{ capped 2 [] with ovf := true, inq := [⟨.op5, [0x02], .idle⟩] },
      { capped 2 [] with ovf := true, out := [.status ⟨.empty, 0, true⟩] }, ⟨.op5, [0x02], .idle⟩, rfl, rfl, by decide,
      eq_next_of (by decide +kernel)⟩,
   ⟨{ capped 2 [] with ovf := true, inq := [⟨.op5, [0x01], .idle⟩] }, capped 2 [], ⟨.op5, [0x01], .idle⟩, rfl, rfl,
      by decide, eq_next_of (by decide +kernel)⟩⟩

/-- OverlappingOperationsRefused: an RSM.FEED during an RSM.FEED and during an RSM.CLEAR, an RSM.CLEAR during an
RSM.FEED, and each while `ovf = 1`. -/
theorem witness_OverlappingOperationsRefused :
    ∀ ovf ∈ [false, true],
      ({ on [] with busy := .feed, ovf := ovf } : State).busy ≠ .idle ∧
      ({ on [] with busy := .clear, ovf := ovf } : State).busy ≠ .idle ∧
      ({ on [] with busy := .feed, ovf := ovf } : State).busy = .feed := by decide

/-- ClearLeavesResetBuffer: between operations, and while an RSM.CLEAR is in progress. -/
theorem witness_ClearLeavesResetBuffer :
    (on u9).busy ≠ .feed ∧ ({ on u9 with busy := .clear } : State).busy ≠ .feed := by decide

/-- A feed that emits a frame and keeps a leftover, for the statements about a feed's frames and bytes. -/
theorem feed_emits : exec (.rsmFeed (u9.drop 2 ++ [0xFF, 0x78, 0x78])) (on [0x78, 0x78]) =
    .next { on [0x78, 0x78] with out := [.frames [u9]] } := eq_next_of (by decide +kernel)

/-- EmittedFramesAreDelimited: a feed that emits `U9`; and the shortest frame (V1.11). -/
theorem witness_EmittedFramesAreDelimited :
    (∃ (s t : State) (chunk : Bytes), exec (.rsmFeed chunk) s = .next t ∧ t.out = s.out ++ [.frames [u9]] ∧ u9 ∈ [u9]) ∧
    (∃ (s t : State) (chunk : Bytes), exec (.rsmFeed chunk) s = .next t ∧
      t.out = s.out ++ [.frames [[0x78, 0x78, 0x0d, 0x0a, 0x0d, 0x0a]]]) :=
  ⟨⟨_, _, _, feed_emits, rfl, List.mem_singleton.mpr rfl⟩,
   ⟨on [], { on [] with out := [.frames [[0x78, 0x78, 0x0d, 0x0a, 0x0d, 0x0a]]] }, [0x78, 0x78, 0x0d, 0x0a, 0x0d, 0x0a],
      eq_next_of (by decide +kernel), rfl⟩⟩

/-- FeedEstablishesBufferInvariant: also from a buffer that does not satisfy it. -/
theorem witness_FeedEstablishesBufferInvariant :
    (∃ (s t : State) (chunk : Bytes), exec (.rsmFeed chunk) s = .next t ∧ t.ovf = false ∧ t.buf = [0x78, 0x78]) ∧
    (∃ (s t : State), exec (.rsmFeed []) s = .next t ∧ t.ovf = false ∧ Memory.wf s.buf = false) :=
  ⟨⟨_, _, _, feed_emits, rfl, rfl⟩,
   ⟨on (0x00 :: u9), { on [] with out := [.frames [u9]] }, eq_next_of (by decide +kernel), rfl, by decide⟩⟩

/-- FeedEmitsAtMostOneFramePerSixBytes: the bound is reached. -/
theorem witness_FeedEmitsAtMostOneFramePerSixBytes :
    ∃ (s t : State) (chunk : Bytes) (fs : List Frame), exec (.rsmFeed chunk) s = .next t ∧
      t.out = s.out ++ [.frames fs] ∧ 6 * fs.length + t.buf.length = s.buf.length + chunk.length ∧ fs.length = 1 :=
  ⟨on [], { on [0x78, 0x78] with out := [.frames [[0x78, 0x78, 0x01, 0x02, 0x0d, 0x0a]]] },
    [0x78, 0x78, 0x01, 0x02, 0x0d, 0x0a, 0x78, 0x78], [[0x78, 0x78, 0x01, 0x02, 0x0d, 0x0a]],
    eq_next_of (by decide +kernel), rfl, by decide, rfl⟩

/-- FeedsConserveEveryByte: `U9` in two chunks, with garbage and a leftover. -/
theorem witness_FeedsConserveEveryByte :
    ∃ u, FeedRun (on []) [[0xFF, 0x78, 0x78], u9.drop 2 ++ [0x00, 0x78, 0x78]] [u9] u ∧ u.buf = [0x78, 0x78] :=
  ⟨{ on [0x78, 0x78] with out := [.frames [], .frames [u9]] },
   .more (on []) { on [0x78, 0x78] with out := [.frames []] } _ _ _ [] [u9] (eq_next_of (by decide +kernel)) rfl
    (.more { on [0x78, 0x78] with out := [.frames []] } _ _ _ [] [u9] [] (eq_next_of (by decide +kernel)) rfl (.done _)),
   rfl⟩

/-- ChunkCutsDoNotMatter: a cut inside the end marker, and a cut after a dropped `78` that the second part does not
complete. -/
theorem witness_ChunkCutsDoNotMatter :
    (∃ (s t u : State) (a b : Bytes), CanFeed s (a ++ b) ∧ exec (.rsmFeed a) s = .next t ∧
      t.out = s.out ++ [.frames []] ∧ exec (.rsmFeed b) t = .next u ∧ u.out = t.out ++ [.frames [u9]] ∧
      ¬ (t.buf = [] ∧ (s.buf ++ a).getLast? = some 0x78 ∧ b.head? = some 0x78)) ∧
    (∃ (s t u : State) (a b : Bytes), CanFeed s (a ++ b) ∧ exec (.rsmFeed a) s = .next t ∧
      t.out = s.out ++ [.frames []] ∧ exec (.rsmFeed b) t = .next u ∧ u.out = t.out ++ [.frames [u9]] ∧ t.buf = [] ∧
      (s.buf ++ a).getLast? = some 0x78 ∧
      ¬ (t.buf = [] ∧ (s.buf ++ a).getLast? = some 0x78 ∧ b.head? = some 0x78)) :=
  ⟨⟨on [], { on (u9.take 8) with out := [.frames []] }, { on [] with out := [.frames [], .frames [u9]] }, u9.take 8, [0x0a],
      canFeed_unbounded _ _, eq_next_of (by decide +kernel), rfl, eq_next_of (by decide +kernel), rfl, by decide⟩,
   ⟨on [], { on [] with out := [.frames []] }, { on [] with out := [.frames [], .frames [u9]] }, [0x78], 0x00 :: u9,
      canFeed_unbounded _ _, eq_next_of (by decide +kernel), rfl, eq_next_of (by decide +kernel), rfl, rfl, rfl,
      by decide⟩⟩

/-- LoneStartByteIsLost: a new instance, and a finite one of capacity 1. -/
theorem witness_LoneStartByteIsLost :
    ((on []).buf = [] ∧ CanFeed (on []) [0x78]) ∧ ((capped 1 []).buf = [] ∧ CanFeed (capped 1 []) [0x78]) :=
  ⟨⟨rfl, canFeed_unbounded _ _⟩, ⟨rfl, canFeed_capped (by decide)⟩⟩

/-- `U9` and the shortest frame are delimitable. -/
theorem delimitable_u9 : Delimitable u9 :=
  ⟨by decide, ⟨rfl, rfl⟩, ⟨rfl, rfl⟩, fun i h4 hl => by
    have : i ≤ 6 := by simpa [u9] using hl
    unfold EndAt PairAt
    interval_cases i <;> decide⟩

theorem delimitable_shortest : Delimitable [0x78, 0x78, 0x0d, 0x0a, 0x0d, 0x0a] :=
  ⟨by decide, ⟨rfl, rfl⟩, ⟨rfl, rfl⟩, fun i h4 hl => by simp at hl; omega⟩

/-- Garbage: none, and bytes with an end marker and a `78` inside. -/
theorem garbage_nil : Garbage [] := ⟨findStart_eq_none.mp rfl, by decide⟩

theorem garbage_some : Garbage [0xaa, 0x78, 0x0d, 0x0a, 0x55] := ⟨findStart_eq_none.mp (by decide), by decide⟩

/-- FramesAmongGarbageComeOutInOrder: two frames with garbage before, between and after them. -/
theorem witness_FramesAmongGarbageComeOutInOrder :
    ∃ (s : State) (parts : List (Bytes × Frame)) (last : Bytes), s.buf = [] ∧ parts.length = 2 ∧
      (∀ p ∈ parts, Garbage p.1 ∧ Delimitable p.2) ∧ Garbage last ∧
      CanFeed s ((parts.flatMap fun p => p.1 ++ p.2) ++ last) :=
  ⟨on [], [([0xaa, 0x78, 0x0d, 0x0a, 0x55], u9), ([], [0x78, 0x78, 0x0d, 0x0a, 0x0d, 0x0a])],
    [0xaa, 0x78, 0x0d, 0x0a, 0x55], rfl, rfl, by
      intro p hp
      simp only [List.mem_cons, List.not_mem_nil, or_false] at hp
      rcases hp with rfl | rfl
      · exact ⟨garbage_some, delimitable_u9⟩
      · exact ⟨garbage_nil, delimitable_shortest⟩,
    garbage_some, canFeed_unbounded _ _⟩

/-- EmptyChunkChangesNothing: V1.2 and V1.4. -/
theorem witness_EmptyChunkChangesNothing :
    (Inv (on []) ∧ (on []).ovf = false) ∧ (Inv (on [0x78, 0x78, 0x05]) ∧ (on [0x78, 0x78, 0x05]).ovf = false) :=
  ⟨⟨inv_of (by decide) ⟨rfl, rfl⟩ rfl, rfl⟩, ⟨inv_of (by decide) ⟨rfl, rfl⟩ rfl, rfl⟩⟩

/-- OtherUnitsOnlyDeliverOneResult: an operation of another unit on an accumulating, overflowed instance. -/
theorem witness_OtherUnitsOnlyDeliverOneResult :
    ∃ (i : Instr) (s t : State), exec i s = .next t ∧ (∀ chunk, i ≠ .rsmFeed chunk) ∧ i ≠ .rsmClear ∧ s.ovf = true :=
  ⟨.crc16 [0x05], { on [0x78, 0x78] with ovf := true }, _, rfl, by simp, by simp, rfl⟩

/-- FeedAndClearChangeOnlyTheBuffer: a feed that fits, one that overflows, a clear. -/
theorem witness_FeedAndClearChangeOnlyTheBuffer :
    (∃ t, exec (.rsmFeed (u9.drop 2 ++ [0xFF, 0x78, 0x78])) (on [0x78, 0x78]) = .next t ∧ t.out = [.frames [u9]]) ∧
    (∃ t, exec (.rsmFeed [0x00]) (capped 0 []) = .next t ∧ t.out = [.overflow]) ∧
    (∃ t, exec .rsmClear (on u9) = .next t ∧ t.buf = []) :=
  ⟨⟨_, feed_emits, rfl⟩,
   ⟨{ capped 0 [] with ovf := true, out := [.overflow] }, eq_next_of (by decide +kernel), rfl⟩, ⟨_, rfl, rfl⟩⟩

/-- RefusalsAreTheSpecsAndAllElseCompletes: each refusal at the edge of its domain, the state in which both refusals of
RSM.FEED could hold, and an instruction that none of them touches. -/
theorem witness_RefusalsAreTheSpecsAndAllElseCompletes :
    Refuses (.rsmFeed []) { on [] with busy := .clear } .concurrentFeed ∧
    Refuses .rsmClear { on [] with busy := .feed } .concurrentFeed ∧
    Refuses (.rsmFeed []) { on [] with ovf := true } .feedAfterOverflow ∧
    (Refuses (.rsmFeed []) { on [] with busy := .clear, ovf := true } .concurrentFeed ∧
      ¬ Refuses (.rsmFeed []) { on [] with busy := .clear, ovf := true } .feedAfterOverflow) ∧
    Refuses (.xorSum [0x01] 1 0) (on []) .badRange ∧ Refuses (.xorSum [0x01] 0 2) (on []) .badRange ∧
    Refuses (.xorVerify [0x0d, 0x0a]) (on []) .notAFrame ∧
    Refuses (.ackFromframe (l18.take 13)) (on []) .ackShortFrame ∧
    (∀ r, ¬ Refuses (.ackFromframe (l18.take 14)) (on []) r) :=
  ⟨.feedDuring _ _ (by decide), .clearDuring _ rfl, .afterOverflow _ _ rfl rfl,
   ⟨.feedDuring _ _ (by decide), fun h => by cases h with | afterOverflow _ _ hb _ => exact absurd hb (by decide)⟩,
   .badRange _ _ _ _ (by decide),
   .badRange _ _ _ _ (by decide), .notAFrame _ _ (by decide), .ackShortFrame _ _ (by decide),
   fun r h => by cases h with | ackShortFrame _ _ h => exact absurd h (by decide)⟩

/-- Crc16ChainsCrcSteps: a message with a byte at offset 0 and at its last offset. -/
theorem witness_Crc16ChainsCrcSteps :
    ([0x05, 0x01] : Bytes)[0]? = some 0x05 ∧ ([0x05, 0x01] : Bytes)[1]? = some 0x01 := by decide

/-- XorSumIsTheParityOfEachBit: the whole sequence, and the empty range at its end. -/
theorem witness_XorSumIsTheParityOfEachBit :
    (0 ≤ 9 ∧ 9 ≤ u9.length ∧ 7 < 8) ∧ (9 ≤ 9 ∧ 9 ≤ u9.length) := by decide

/-- XorVerifyComparesCarriedAndComputed: each start of the span, at `start = c` and at `c + 1 = start`. -/
theorem witness_XorVerifyComparesCarriedAndComputed :
    ∀ q ∈ [(XorFrom.lengthByte, 2), (.messageType, 3), (.body, 4)], ∀ c ∈ [q.2, q.2 - 1],
      (u9.take (c + 3)).length = c + 3 ∧
      ((spanFrom q.1).params.xorFrom = .lengthByte → q.2 = 2) ∧
      ((spanFrom q.1).params.xorFrom = .messageType → q.2 = 3) ∧ ((spanFrom q.1).params.xorFrom = .body → q.2 = 4) ∧
      (q.2 ≤ c ∨ c < q.2) := by decide

/-- XorOutsideItsDomainIsRefused: a range that ends before it starts, one that ends one byte too late, 2 bytes. -/
theorem witness_XorOutsideItsDomainIsRefused :
    (1 < 2 ∨ u9.length < 1) ∧ (10 < 0 ∨ u9.length < 10) ∧ ([0x0d, 0x0a] : Bytes).length < 3 := by decide

/-- ReadU8DeliversTheByteOrError: the last offset, and the one after it. -/
theorem witness_ReadU8DeliversTheByteOrError : u9[8]? = some 0x0a ∧ u9.length < 9 + 1 := by decide

/-- ReadU16DeliversBigEndianOrError: the last offset at which two bytes stand, and the one after it. -/
theorem witness_ReadU16DeliversBigEndianOrError : 7 + 2 ≤ u9.length ∧ u9.length < 8 + 2 := by decide

/-- ReadU32DeliversBigEndianOrError: the last offset at which four bytes stand, and the one after it. -/
theorem witness_ReadU32DeliversBigEndianOrError : 5 + 4 ≤ u9.length ∧ u9.length < 6 + 4 := by decide

/-- ReadBytesIsAllOrNothing: a read that ends with the sequence, no bytes at its end, one byte too many. -/
theorem witness_ReadBytesIsAllOrNothing :
    (3 + 6 ≤ u9.length ∧ 5 < 6) ∧ 9 + 0 ≤ u9.length ∧ u9.length < 4 + 6 := by decide

/-- IdDecodeSplitsEachByteIntoDigits: the first and the last byte, under both orders. -/
theorem witness_IdDecodeSplitsEachByteIntoDigits :
    (bytes8List id8)[0]? = some 0x03 ∧ (bytes8List id8)[7]? = some 0x51 ∧
    State.reset.params.idDigitOrder = .lowFirst ∧
    (State.create { Params.default with idDigitOrder := .highFirst }).params.idDigitOrder = .highFirst := by decide

/-- ClassifyDispatchesOnTheMessageType: 3 bytes with the marker, no marker, and 4 bytes of each class. -/
theorem witness_ClassifyDispatchesOnTheMessageType :
    (([0x78, 0x78, 0x05] : Bytes).length < 4 ∨ ¬ StartAt [0x78, 0x78, 0x05] 0) ∧
    (([0x79, 0x78, 0x05, 0x01] : Bytes).length < 4 ∨ ¬ StartAt [0x79, 0x78, 0x05, 0x01] 0) ∧
    (∀ t ∈ ([0x01, 0x04, 0x16] : List Byte),
      StartAt [0x78, 0x78, 0x05, t] 0 ∧ ([0x78, 0x78, 0x05, t] : Bytes)[3]? = some t) :=
  ⟨.inl (by decide), .inr (fun h => absurd h.1 (by decide)), fun _ _ => ⟨⟨rfl, rfl⟩, rfl⟩⟩

/-- ExtractRejectsWithoutFields: one byte, no marker; 3 bytes with the marker. -/
theorem witness_ExtractRejectsWithoutFields :
    (([0x78] : Bytes).length < 4 ∧ ¬ StartAt [0x78] 0) ∧
    (([0x78, 0x78, 0x05] : Bytes).length < 4 ∧ StartAt [0x78, 0x78, 0x05] 0) :=
  ⟨⟨by decide, fun h => absurd h.2 (by decide)⟩, by decide, ⟨rfl, rfl⟩⟩

/-- LocationOutcomeByLength and LocationFieldsAreTheReadsAtTheirOffsets: the first bytes of `F38` at the boundary
lengths of every clause. -/
theorem witness_LocationFrames :
    ∀ n ∈ [4, 11, 12, 13, 14, 27, 28, 33, 34, 35, 38],
      StartAt (f38.take n) 0 ∧ (f38.take n)[3]? = some 0x01 ∧ (f38.take n).length = n := by
  unfold StartAt PairAt
  decide

/-- HeartbeatGivesIdentifierOnly: the first bytes of `H17` at the boundary lengths. -/
theorem witness_HeartbeatGivesIdentifierOnly :
    ∀ n ∈ [4, 11, 12, 17],
      StartAt (h17.take n) 0 ∧ (h17.take n)[3]? = some 0x04 ∧ (h17.take n).length = n := by
  unfold StartAt PairAt
  decide

/-- UnknownTypeIsNoError: 4 bytes, message types beside the known ones. -/
theorem witness_UnknownTypeIsNoError :
    ∀ t ∈ ([0x00, 0x02, 0x03, 0x05, 0x16] : List Byte),
      StartAt [0x78, 0x78, 0x05, t] 0 ∧ ([0x78, 0x78, 0x05, t] : Bytes)[3]? = some t ∧ t ≠ 0x01 ∧ t ≠ 0x04 := by
  unfold StartAt PairAt
  decide

/-- ExtractIsTotalAndPure: two instances that differ in everything but the parameters. -/
theorem witness_ExtractIsTotalAndPure :
    (on u9).params = ({ on [] with ovf := true, busy := .feed } : State).params ∧
    on u9 ≠ { on [] with ovf := true, busy := .feed } := by decide

/-- RecordGroupsAreAPrefix: an extraction with a fix, of 28 bytes. -/
theorem witness_RecordGroupsAreAPrefix :
    ∃ r : Rec, exec (.fxExtract (f38.take 28)) (on []) =
      .next { on [] with out := (on []).out ++ [.record r] } ∧ r.gpsReady = true :=
  ⟨extract Params.default (f38.take 28), eq_next_of (by decide +kernel), by decide +kernel⟩

/-- FrameClassesDeliverTheirExtraction: another message type, and the two kinds of rejected sequences. -/
theorem witness_FrameClassesDeliverTheirExtraction :
    ((0x16 : Byte) ≠ 0x01 ∧ (0x16 : Byte) ≠ 0x04) ∧
    (([0x78, 0x78, 0x05] : Bytes).length < 4 ∨ ¬ StartAt [0x78, 0x78, 0x05] 0) ∧
    (([0x79, 0x78, 0x05, 0x01] : Bytes).length < 4 ∨ ¬ StartAt [0x79, 0x78, 0x05, 0x01] 0) :=
  ⟨by decide, .inl (by decide), .inr (fun h => absurd h.1 (by decide))⟩

/-- AckFromFrameEchoesTypeAndSerial: 14 and 13 bytes. -/
theorem witness_AckFromFrameEchoesTypeAndSerial : 14 ≤ (f38.take 14).length ∧ (f38.take 13).length < 14 := by decide

/-- FrameAckDeliversTheAcknowledgement: the word of V6.1. -/
theorem witness_FrameAckDeliversTheAcknowledgement :
    exec (.crc16 [0x05, 0x01, 0x00, 0x08]) (on []) =
      .next { on [] with out := (on []).out ++ [.crc 0x441D [0x44, 0x1d]] } := eq_next_of (by decide +kernel)

/-- An instance whose host has issued a feed that overflows it, then an RSM.CLEAR (the shape of P5). -/
def overflowThenClear : State :=
  { capped 0 [] with inq := [feedCommand [0x00] .idle, ⟨.op5, [0x01], .idle⟩] }

/-- The run of its two commands: the overflow, then `ovf = 0` again. -/
theorem overflowThenClear_run :
    Sys2Proof.core.run 2 overflowThenClear = .next { capped 0 [] with out := [.overflow] } :=
  run_succ_eq_next.mpr
    ⟨{ capped 0 [] with ovf := true, inq := [⟨.op5, [0x01], .idle⟩], out := [.overflow] }, eq_next_of (by decide +kernel),
      run_succ_eq_next.mpr ⟨{ capped 0 [] with out := [.overflow] }, eq_next_of (by decide +kernel), rfl⟩⟩

/-- RunFaultsExactlyWhenItOverflows: a run that overflowed and was cleared, and a run that did not overflow. -/
theorem witness_RunFaultsExactlyWhenItOverflows :
    (∃ t, overflowThenClear.ovf = false ∧ overflowThenClear.out = [] ∧
      Sys2Proof.core.run 2 overflowThenClear = .next t ∧ t.ovf = false ∧ (runResult t).faulted = true) ∧
    (∃ t, State.reset.ovf = false ∧ State.reset.out = [] ∧ Sys2Proof.core.run 1 State.reset = .next t ∧
      (runResult t).faulted = false) :=
  ⟨⟨_, rfl, rfl, overflowThenClear_run, rfl, rfl⟩, ⟨State.reset, rfl, rfl, rfl, rfl⟩⟩

/-- SafeRunsAreTheUnfaultedOnes: the invariant where the run faults, and where it does not; that the first run is not
safe is R286's own example. -/
theorem witness_SafeRunsAreTheUnfaultedOnes :
    Inv overflowThenClear ∧ ¬ SafeRun 2 overflowThenClear ∧ Inv State.reset ∧ SafeRun 0 State.reset :=
  ⟨inv_of_cap (cap := 0) (by decide) ⟨rfl, by decide⟩ rfl,
   fun h => by
    obtain ⟨t, hr, hs⟩ := h 1 (by decide)
    obtain ⟨u, hu, h0⟩ := run_succ_eq_next.mp hr
    cases h0
    have : step overflowThenClear =
        .next { capped 0 [] with ovf := true, inq := [⟨.op5, [0x01], .idle⟩], out := [.overflow] } :=
      eq_next_of (by decide +kernel)
    rw [this] at hu
    cases hu
    exact hs.2 rfl,
   inv_of (by decide) ⟨rfl, rfl⟩ rfl,
   fun j hj => ⟨State.reset, by rw [Nat.le_zero.mp hj]; rfl, inv_of (by decide) ⟨rfl, rfl⟩ rfl, Bool.false_ne_true⟩⟩

/-- RefusalsReportTheirCondition: a refused instruction. -/
theorem witness_RefusalsReportTheirCondition :
    exec (.xorVerify []) State.reset = .refused .notAFrame := rfl

/-- ResultsReportTheirCondition: 3 bytes, the carried byte equal to the computed one and different from it. -/
theorem witness_ResultsReportTheirCondition :
    (3 ≤ ([0x00, 0x0d, 0x0a] : Bytes).length ∧ gives (.xorVerify [0x00, 0x0d, 0x0a]) = some [.chk ⟨0, 0, true⟩]) ∧
    (3 ≤ ([0x01, 0x0d, 0x0a] : Bytes).length ∧ gives (.xorVerify [0x01, 0x0d, 0x0a]) = some [.chk ⟨1, 0, false⟩]) := by
  decide +kernel

/-- ExtractReportsItsCondition: no byte, 3 bytes with the marker, and the boundary lengths of both known types. -/
theorem witness_ExtractReportsItsCondition :
    ¬ StartAt [] 0 ∧ (StartAt [0x78, 0x78, 0x05] 0 ∧ ([0x78, 0x78, 0x05] : Bytes).length < 4) ∧
    (∀ n ∈ [4, 13, 14, 27, 28, 34, 35],
      StartAt (f38.take n) 0 ∧ (f38.take n)[3]? = some 0x01 ∧ (f38.take n).length = n) ∧
    (∀ n ∈ [4, 11, 12], StartAt (h17.take n) 0 ∧ (h17.take n)[3]? = some 0x04 ∧ (h17.take n).length = n) ∧
    (StartAt (u9.take 4) 0 ∧ (u9.take 4)[3]? = some 0x16 ∧ (0x16 : Byte) ≠ 0x01 ∧ (0x16 : Byte) ≠ 0x04) := by
  unfold StartAt PairAt
  decide

/-- FrameIncompleteIsAccumulating: an exactly full buffer that waits, and a feed that leaves nothing. -/
theorem witness_FrameIncompleteIsAccumulating :
    (CanFeed (capped 3 [0x78, 0x78]) [0x05] ∧
      after (.rsmFeed [0x05]) (capped 3 [0x78, 0x78]) = some ([0x78, 0x78, 0x05], false, some (.frames []))) ∧
    (CanFeed (on []) u9 ∧ after (.rsmFeed u9) (on []) = some ([], false, some (.frames [u9]))) :=
  ⟨⟨canFeed_capped (by decide), by decide +kernel⟩, ⟨canFeed_unbounded _ _, by decide +kernel⟩⟩

/-- BytesOfNoInstructionAreRefused: each clause at its boundary: no byte; one operand byte where there is none, one too
few or too many of a fixed size, a bit operand of 2, one natural number short, an ACK80 command with one byte changed
and one of nine bytes. -/
theorem witness_BytesOfNoInstructionAreRefused :
    (∀ bs ∈ ([[0x01, 0x00], [0x02, 0x00], [0x04, 0x00, 0x00], [0x18, 0x00, 0x00, 0x00, 0x00],
        0x10 :: List.replicate 7 0x00, [0x13], 0x14 :: List.replicate 5 0x00] : List Bytes),
      refusalOf (step (State.reset.issue ⟨.op5, bs, .idle⟩)) = some .badOperands) ∧
    (∀ bs ∈ ([[0x14, 0x00, 0x00, 0x00, 0x00, 0x02, 0x00], [0x14, 0x00, 0x00, 0x00, 0x00, 0x01, 0x02],
        [0x0C], [0x0D, 0x80], [0x0E, 0xFF, 0x80], [0x08, 0x7F], [0x0F, 0x80, 0x00, 0x80]] : List Bytes),
      refusalOf (step (State.reset.issue ⟨.op5, bs, .idle⟩)) = some .badOperands) ∧
    refusalOf (step (State.reset.issue ⟨.op5, [], .idle⟩)) = some .noOperation ∧
    (∀ bs ∈ ([[0x78, 0x78, 0x05, 0x01, 0x00, 0x08, 0x44, 0x1d, 0x0d, 0x0b],
        [0x78, 0x78, 0x05, 0x01, 0x00, 0x08, 0x44, 0x1d, 0x0d]] : List Bytes),
      refusalOf (step (State.reset.issue ⟨.ack80, bs, .idle⟩)) = some .notAckPattern) := by decide +kernel

end Sys2Proof.Tests
end

section
/-! PROOFS. The acknowledgement frame of ACK.BUILD (spec/30_encoding.md R88). -/

namespace Sys2Proof.Machine

theorem exec_crc16 (m : Bytes) (s : State) :
    exec (.crc16 m) s = .next (s.deliver (.crc (crc16 m) (be16Bytes (crc16 m)))) := rfl

theorem exec_ackBuild (t s0 s1 : Byte) (s : State) :
    exec (.ackBuild t s0 s1) s = .next (s.deliver (.ack (ackFrame t s0 s1))) := rfl

/-- A 16-bit value is laid out as two bytes that make it again, high byte first (R51). -/
theorem exists_be16Bytes_eq (w : BitVec 16) :
    ∃ hi lo : Byte, be16Bytes w = [hi, lo] ∧ w.toNat = hi.toNat * 256 + lo.toNat :=
  ⟨w.extractLsb' 8 8, w.extractLsb' 0 8, rfl, by rw [← beValue_two, ← be16Bytes, beValue_be16Bytes]⟩

/-- R88 byte for byte, once the two bytes of the CRC field are known. -/
theorem ackFrame_eq_of_be16Bytes_crc16 {t s0 s1 hi lo : Byte} (h : be16Bytes (crc16 [0x05, t, s0, s1]) = [hi, lo]) :
    ackFrame t s0 s1 = [0x78, 0x78, 0x05, t, s0, s1, hi, lo, 0x0d, 0x0a] := by
  have body : ackBody t s0 s1 = [0x05, t, s0, s1] := rfl
  rw [ackFrame, body, h]
  rfl

/-- Settles O50: CRC16 and ACK.BUILD lay out the same two bytes, those of the CRC of the frame's offsets 2 to 5. -/
theorem ackBuildLaysOutTheFrame : Obligations.AckBuildLaysOutTheFrame := by
  intro s t s0 s1
  obtain ⟨hi, lo, bytes, value⟩ := exists_be16Bytes_eq (crc16 [0x05, t, s0, s1])
  refine ⟨crc16 [0x05, t, s0, s1], hi, lo, ?_, value, ?_⟩
  · rw [exec_crc16, bytes]
    rfl
  · rw [exec_ackBuild, ackFrame_eq_of_be16Bytes_crc16 bytes]
    rfl

end Sys2Proof.Machine
end

section
/-! PROOFS. CRC16 as a chain of CRC.STEP (spec/41_crc16_x25.md R151, R152). -/

namespace Sys2Proof.Machine

theorem exec_crcStep (reg : BitVec 16) (b : Byte) (s : State) :
    exec (.crcStep reg b) s = .next (s.deliver (.crcReg (crcStep reg b))) := rfl

/-- The register inside CRC16 when it has consumed the first `k` bytes of `m` (R151). -/
def crcRegAfter (m : Bytes) (k : Nat) : BitVec 16 := (m.take k).foldl crcStep crcInit

theorem crcRegAfter_zero (m : Bytes) : crcRegAfter m 0 = 0xFFFF := rfl

theorem crcRegAfter_succ {m : Bytes} {k : Nat} {b : Byte} (h : m[k]? = some b) :
    crcRegAfter m (k + 1) = crcStep (crcRegAfter m k) b := crc_foldl_take_succ m k b h

/-- Past the last byte only the complement is left (R151). -/
theorem crc16_eq_not_crcRegAfter_length (m : Bytes) : crc16 m = ~~~ (crcRegAfter m m.length) := by
  rw [crc16, crcRegAfter, List.take_length]

/-- Settles O29: the chain is the register after each prefix of the message; the two bytes are those of its complement
at the whole message. -/
theorem crc16ChainsCrcSteps : Obligations.Crc16ChainsCrcSteps := by
  intro s m
  obtain ⟨hi, lo, bytes, value⟩ := exists_be16Bytes_eq (crc16 m)
  refine ⟨crcRegAfter m, hi, lo, crcRegAfter_zero m, fun k b hb => ?_, ?_, ?_⟩
  · rw [exec_crcStep, crcRegAfter_succ hb]
    rfl
  · rw [← crc16_eq_not_crcRegAfter_length, value]
  · rw [exec_crc16, bytes, ← crc16_eq_not_crcRegAfter_length]
    rfl

end Sys2Proof.Machine
end

section
/-! PROOFS. The big-endian readers (spec/43_field_extractor.md R186, R187). -/

namespace Sys2Proof.Machine

theorem exec_rdU16be (src : Bytes) (off : Nat) (s : State) :
    exec (.rdU16be src off) s = .next (s.deliver (readResult .u16 (readU16be src off))) := rfl

theorem exec_rdU32be (src : Bytes) (off : Nat) (s : State) :
    exec (.rdU32be src off) s = .next (s.deliver (readResult .u32 (readU32be src off))) := rfl

/-- Settles O35: a read in range has a value and delivers it, a read past the end has none. -/
theorem readU16DeliversBigEndianOrError : Obligations.ReadU16DeliversBigEndianOrError := by
  intro s src off
  constructor
  · intro inside
    obtain ⟨b0, b1, v, byte0, byte1, value, read⟩ := readU16be_eq inside
    refine ⟨b0, b1, v, byte0, byte1, value, ?_⟩
    rw [exec_rdU16be, read]
    rfl
  · intro outside
    rw [exec_rdU16be, readU16be_of_lt outside]
    rfl

/-- Settles O36: a read in range has a value and delivers it, a read past the end has none. -/
theorem readU32DeliversBigEndianOrError : Obligations.ReadU32DeliversBigEndianOrError := by
  intro s src off
  constructor
  · intro inside
    obtain ⟨b0, b1, b2, b3, v, byte0, byte1, byte2, byte3, value, read⟩ := readU32be_eq inside
    refine ⟨b0, b1, b2, b3, v, byte0, byte1, byte2, byte3, value, ?_⟩
    rw [exec_rdU32be, read]
    rfl
  · intro outside
    rw [exec_rdU32be, readU32be_of_lt outside]
    rfl

end Sys2Proof.Machine
end

section
/-! PROOFS. The status byte (spec/43_field_extractor.md R198). -/

namespace Sys2Proof.Machine

theorem exec_statusDecode (st : Byte) (s : State) :
    exec (.statusDecode st) s = .next (s.deliver (.statusBits (decodeStatus st))) := rfl

/-- A bit of a byte as arithmetic: divide by its weight and take the parity. -/
theorem byte_getLsbD_iff (b : Byte) (i : Nat) : b.getLsbD i = true ↔ b.toNat / 2 ^ i % 2 = 1 := by
  rw [← BitVec.testBit_toNat, Nat.testBit_eq_decide_div_mod_eq, decide_eq_true_iff]

theorem decodeStatus_latSouth_iff (st : Byte) : (decodeStatus st).latSouth = true ↔ st.toNat % 2 = 1 :=
  (byte_getLsbD_iff st 0).trans (by rw [pow_zero, Nat.div_one])

theorem decodeStatus_lonWest_iff (st : Byte) : (decodeStatus st).lonWest = true ↔ st.toNat / 2 % 2 = 1 :=
  byte_getLsbD_iff st 1

theorem decodeStatus_unfixed_iff (st : Byte) : (decodeStatus st).unfixed = true ↔ st.toNat / 4 % 2 = 1 :=
  byte_getLsbD_iff st 2

/-- The high nibble: no bit of the byte stands above it. -/
theorem decodeStatus_sats_toNat (st : Byte) : (decodeStatus st).sats.toNat = st.toNat / 16 := by
  have bound : st.toNat < 256 := st.isLt
  calc (decodeStatus st).sats.toNat
      = st.toNat >>> 4 % 2 ^ 4 := BitVec.extractLsb'_toNat ..
    _ = st.toNat / 16 := by rw [Nat.shiftRight_eq_div_pow]; omega

/-- Settles O39: the bundle of the decoder, field by field. -/
theorem statusDecodeReadsItsBits : Obligations.StatusDecodeReadsItsBits := fun s st =>
  ⟨decodeStatus st, exec_statusDecode st s, decodeStatus_latSouth_iff st, decodeStatus_lonWest_iff st,
    decodeStatus_unfixed_iff st, decodeStatus_sats_toNat st⟩

end Sys2Proof.Machine
end

section
/-! PROOFS. The dispatch on the message type, and the path that reads the header alone (spec/43_field_extractor.md R190,
R197). -/

namespace Sys2Proof.Machine

theorem exec_fxClassify (f : Bytes) (s : State) :
    exec (.fxClassify f) s = .next (s.deliver (.cls (classify f))) := rfl

theorem exec_fxExtract (f : Bytes) (s : State) :
    exec (.fxExtract f) s = .next (s.deliver (.record (extract s.params f))) := rfl

/-- Settles O41: the classification of the sequence, without a message type and with one. -/
theorem classifyDispatchesOnTheMessageType : Obligations.ClassifyDispatchesOnTheMessageType := by
  intro s f
  constructor
  · intro noType
    rw [exec_fxClassify, classify_rejected noType]
    rfl
  · intro t start type
    rw [exec_fxClassify, classify_of_type start type]
    rfl

@[simp] theorem recHeader_cls (c : Cls) (f : Bytes) : (recHeader c f).cls = c := rfl
@[simp] theorem recHeader_err (c : Cls) (f : Bytes) : (recHeader c f).err = .noError := rfl
@[simp] theorem recHeader_flen (c : Cls) (f : Bytes) : (recHeader c f).flen = f.length := rfl
@[simp] theorem recHeader_gpsReady (c : Cls) (f : Bytes) : (recHeader c f).gpsReady = false := rfl

/-- The header is the only group with a value (R191). -/
@[simp] theorem recHeader_vmask (c : Cls) (f : Bytes) : (recHeader c f).vmask = [.hdr] := rfl

theorem exec_fxExtract_of_unknown {f : Bytes} {t : Byte} (s : State) (start : StartAt f 0) (type : f[3]? = some t)
    (notLocfam : t ≠ 0x01) (notHeartbeat : t ≠ 0x04) :
    exec (.fxExtract f) s = .next (s.deliver (.record (recHeader .unknown f))) := by
  rw [exec_fxExtract, extract_unknown start type notLocfam notHeartbeat, extractUnknown]

/-- Settles O46: REC is the header record of class UNKNOWN, and its header is the bytes at offsets 2 and 3. -/
theorem unknownTypeIsNoError : Obligations.UnknownTypeIsNoError := by
  intro s f t start type notLocfam notHeartbeat
  obtain ⟨l, lenByte, header⟩ := recHeader_hdr (c := .unknown) type
  exact ⟨recHeader .unknown f, l, exec_fxExtract_of_unknown s start type notLocfam notHeartbeat,
    recHeader_cls .unknown f, recHeader_err .unknown f, recHeader_flen .unknown f, recHeader_gpsReady .unknown f,
    recHeader_vmask .unknown f, lenByte, header⟩

end Sys2Proof.Machine
end

section
/-! PROOFS. Reset and the step: what every completed step keeps, and what it may write (spec/10_state.md R21 to R23,
spec/20_memory.md R57, R60). -/

namespace Sys2Proof.Machine

/-! The capacity (R65). -/

/-- What is left of a buffer and a chunk that fit also fits. -/
theorem scan_length_le_cap {p : Params} {buf chunk : Bytes} {cap : Nat} (fit : fits p buf chunk = true)
    (finite : p.bufCap = some cap) : (scan (buf ++ chunk)).2.length ≤ cap :=
  calc (scan (buf ++ chunk)).2.length
      ≤ (buf ++ chunk).length := scan_length_le _
    _ = buf.length + chunk.length := List.length_append
    _ ≤ cap := fits_iff.mp fit cap finite

/-- Only a finite buffer overflows (R23). -/
theorem bufCap_ne_none_of_not_fits {p : Params} {buf chunk : Bytes} (full : fits p buf chunk = false) :
    p.bufCap ≠ none := by
  intro unbounded
  rw [fits_iff.mpr fun cap finite => by simp [unbounded] at finite] at full
  exact Bool.noConfusion full

/-- Settles O3: the scan establishes the buffer's form, RSM.CLEAR leaves the empty buffer, and no other operation
touches the buffer; only a finite buffer sets `ovf`. -/
theorem stepKeepsInvariant : Obligations.StepKeepsInvariant := by
  intro s t inv h
  have ⟨buffer, capacity, unbounded, _⟩ := inv
  obtain ⟨-, rfl⟩ | ⟨c, rest, i, u, -, -, he, rfl⟩ := step_cases h
  · exact inv
  · obtain ⟨chunk, -, -, noOverflow, ⟨fit, rfl⟩ | ⟨full, rfl⟩⟩ | ⟨-, -, rfl⟩ | ⟨-, -, r, -, rfl⟩ := exec_cases he
    · exact ⟨(scan_reassembles _).invariant, fun cap finite => scan_length_le_cap fit finite, fun _ => noOverflow, rfl⟩
    · exact ⟨buffer, capacity, fun none => absurd none (bufCap_ne_none_of_not_fits full), rfl⟩
    · exact ⟨.inl rfl, fun cap _ => Nat.zero_le cap, fun _ => rfl, rfl⟩
    · exact ⟨buffer, capacity, unbounded, rfl⟩

/-- Settles O5: the three shapes of a completed instruction, each around the command that was taken. -/
theorem stepOnlyAddsOneResult : Obligations.StepOnlyAddsOneResult := by
  intro s t h
  obtain ⟨noCommand, rfl⟩ | ⟨c, rest, i, u, next, -, he, rfl⟩ := step_cases h
  · exact ⟨rfl, by rw [noCommand]; rfl, .inl rfl⟩
  · have taken : rest = s.inq.tail := by rw [next]; rfl
    obtain ⟨chunk, -, -, -, ⟨-, rfl⟩ | ⟨-, rfl⟩⟩ | ⟨-, -, rfl⟩ | ⟨-, -, r, -, rfl⟩ := exec_cases he
    · exact ⟨rfl, taken, .inr ⟨_, rfl⟩⟩
    · exact ⟨rfl, taken, .inr ⟨_, rfl⟩⟩
    · exact ⟨rfl, taken, .inl rfl⟩
    · exact ⟨rfl, taken, .inr ⟨r, rfl⟩⟩

/-- Settles O13: an RSM.FEED does not complete while `ovf = 1`, and of the rest RSM.CLEAR alone writes the flag. -/
theorem overflowFlagIsSticky : Obligations.OverflowFlagIsSticky := by
  intro s t overflowed h
  obtain ⟨noCommand, rfl⟩ | ⟨c, rest, i, u, next, decoded, he, rfl⟩ := step_cases h
  · exact ⟨fun _ => overflowed, fun c rest next => by simp [noCommand] at next⟩
  · obtain ⟨chunk, -, -, noOverflow, -⟩ | ⟨rfl, -, rfl⟩ | ⟨-, notClear, r, -, rfl⟩ := exec_cases he
    · rw [begin_ovf, overflowed] at noOverflow
      exact Bool.noConfusion noOverflow
    · exact ⟨fun notClear => absurd decoded (notClear c rest next), fun _ _ _ _ => ⟨rfl, rfl⟩⟩
    · refine ⟨fun _ => overflowed, fun c' rest' next' clear => ?_⟩
      obtain ⟨rfl, rfl⟩ := List.cons.inj (next.symm.trans next')
      exact absurd (Decoded.ok.inj (decoded.symm.trans clear)) notClear

/-- Settles O4: the step is the meaning on the begun state, and `finishOutcome` says what is added around it. -/
theorem stepPerformsDecodedInstruction : Obligations.StepPerformsDecodedInstruction := by
  intro s c rest i next decoded
  have hstep : step s = finishOutcome (exec i (s.begin c rest)) := step_of_decoded next decoded
  refine ⟨fun t completes => ?_, fun r refused => ?_, fun f => f.rec⟩
  · rw [hstep, show exec i (s.begin c rest) = .next t from completes]
    rfl
  · rw [hstep, show exec i (s.begin c rest) = .refused r from refused]
    rfl

/-- Settles O1: `State.create` begins with an empty input port, so the step finds no command. -/
theorem newInstanceIsEmptyAndWaits : Obligations.NewInstanceIsEmptyAndWaits :=
  ⟨rfl, fun p => ⟨create_buf p, rfl, create_ovf p, rfl⟩⟩

/-- Settles O2: the empty buffer meets every clause. -/
theorem newInstanceMeetsInvariant : Obligations.NewInstanceMeetsInvariant := fun p =>
  { buffer := .inl (create_buf p)
    capacity := fun cap _ => Nat.zero_le cap
    unbounded := fun _ => create_ovf p
    idle := create_busy p }

end Sys2Proof.Machine
end

section
/-! PROOFS. The three encodings (spec/30_encoding.md R88, R94, R96): the round trip, what the decoder reads, and the
bytes it refuses. -/

namespace Sys2Proof.Machine

/-- Settles O7: instruction by instruction, the round trips of Laws/PerInstr. -/
theorem decodeInvertsEncode : Obligations.DecodeInvertsEncode := by
  intro i
  cases i with
  | rsmFeed chunk => exact Laws.RoundTrip.rsmFeed chunk
  | rsmClear => exact Laws.RoundTrip.rsmClear
  | rsmStatus => exact Laws.RoundTrip.rsmStatus
  | crcStep reg b => exact Laws.RoundTrip.crcStep reg b
  | crc16 m => exact Laws.RoundTrip.crc16 m
  | xorSum src lo hi => exact Laws.RoundTrip.xorSum src lo hi
  | xorVerify f => exact Laws.RoundTrip.xorVerify f
  | rdU8 src off => exact Laws.RoundTrip.rdU8 src off
  | rdU16be src off => exact Laws.RoundTrip.rdU16be src off
  | rdU32be src off => exact Laws.RoundTrip.rdU32be src off
  | rdBytes src off n => exact Laws.RoundTrip.rdBytes src off n
  | idDecode b => exact Laws.RoundTrip.idDecode b
  | fxClassify f => exact Laws.RoundTrip.fxClassify f
  | fxExtract f => exact Laws.RoundTrip.fxExtract f
  | statusDecode st => exact Laws.RoundTrip.statusDecode st
  | coordConvert raw neg axis => exact Laws.RoundTrip.coordConvert raw neg axis
  | ackBuild t s0 s1 => exact Laws.RoundTrip.ackBuild t s0 s1
  | ackFromframe f => exact Laws.RoundTrip.ackFromframe f
  | frameLocfam lenByte rest => exact Laws.RoundTrip.frameLocfam lenByte rest
  | frameHeartbeat lenByte rest => exact Laws.RoundTrip.frameHeartbeat lenByte rest
  | frameUnknown lenByte msgType rest => exact Laws.RoundTrip.frameUnknown lenByte msgType rest
  | frameRejected f => exact Laws.RoundTrip.frameRejected f
  | frameAck t s0 s1 c => exact Laws.RoundTrip.frameAck t s0 s1 c

/-! What the decoder reads. -/

/-- No operation constrains an operand beyond its type. -/
theorem wf_of_format_op5 {i : Instr} (h : i.format = .op5) : i.wf = true := by
  cases i with
  | frameUnknown => exact Format.noConfusion h
  | frameRejected => exact Format.noConfusion h
  | _ => rfl

/-- The operands of an operation make an instruction of format OP5. -/
theorem decodeOperands_format {o : OpName} {bs : Bytes} {i : Instr} (h : decodeOperands o bs = some i) :
    i.format = .op5 := by
  cases o with
  | rsmFeed | crc16 | xorVerify | fxClassify | fxExtract | ackFromframe =>
    cases h
    rfl
  | rsmClear | rsmStatus | crcStep | idDecode | statusDecode | ackBuild =>
    simp only [decodeOperands] at h
    split at h <;> cases h
    rfl
  | rdU8 | rdU16be | rdU32be =>
    obtain ⟨p, -, rfl⟩ := Option.map_eq_some_iff.mp h
    rfl
  | xorSum | rdBytes =>
    obtain ⟨p, -, hq⟩ := Option.bind_eq_some_iff.mp h
    obtain ⟨q, -, rfl⟩ := Option.map_eq_some_iff.mp hq
    rfl
  | coordConvert =>
    simp only [decodeOperands] at h
    split at h
    · obtain ⟨neg, -, haxis⟩ := Option.bind_eq_some_iff.mp h
      obtain ⟨axis, -, rfl⟩ := Option.map_eq_some_iff.mp haxis
      rfl
    · cases h

theorem decodeOp_format {bs : Bytes} {i : Instr} (h : decodeOp bs = .ok i) : i.format = .op5 := by
  unfold decodeOp at h
  split at h
  · cases h
  · split at h
    · cases h
    · split at h
      · next read =>
        cases h
        exact decodeOperands_format read
      · cases h

theorem decodeAck_wf {bs : Bytes} {i : Instr} (h : decodeAck bs = .ok i) : i.wf = true ∧ i.format = .ack80 := by
  unfold decodeAck at h
  split at h
  · split at h <;> cases h
    exact ⟨rfl, rfl⟩
  · cases h

/-- A frame is read under the first row that matches it, which is what its well-formedness asks. -/
theorem decodeFrame_wf (f : Bytes) : (decodeFrame f).wf = true ∧ (decodeFrame f).format = .frame32 := by
  by_cases short : f.length < 4
  · rw [decodeFrame_short short]
    exact ⟨rejectedOk_iff.mpr (.inl short), rfl⟩
  · obtain ⟨b0, b1, b2, b3, rest, rfl⟩ : ∃ b0 b1 b2 b3 rest, f = b0 :: b1 :: b2 :: b3 :: rest := by
      match f, short with
      | b0 :: b1 :: b2 :: b3 :: rest, _ => exact ⟨b0, b1, b2, b3, rest, rfl⟩
      | [], short | [_], short | [_, _], short | [_, _, _], short => simp at short
    rw [decodeFrame_cons]
    split_ifs with marker locfam heartbeat
    · exact ⟨rfl, rfl⟩
    · exact ⟨rfl, rfl⟩
    · exact ⟨Bool.and_eq_true_iff.mpr ⟨bne_iff_ne.mpr locfam, bne_iff_ne.mpr heartbeat⟩, rfl⟩
    · have noStart : ¬ hasStart (b0 :: b1 :: b2 :: b3 :: rest) = true := fun start =>
        have ⟨at0, at1⟩ := hasStart_iff.mp start
        marker ⟨Option.some.inj at0, Option.some.inj at1⟩
      exact ⟨rejectedOk_iff.mpr (.inr noStart), rfl⟩

/-- Settles O8: format by format; only the frame rows ask anything of an operand. -/
theorem decodeReadsWellFormed : Obligations.DecodeReadsWellFormed := by
  intro fmt bs i h
  cases fmt with
  | op5 => exact ⟨wf_of_format_op5 (decodeOp_format h), decodeOp_format h⟩
  | frame32 =>
    cases h
    exact decodeFrame_wf bs
  | ack80 => exact decodeAck_wf h

/-- Settles O9: `H` is the header of the four bytes, and the decoder takes the first row that matches it. -/
theorem headerTableClassifiesFrames : Obligations.HeaderTableClassifiesFrames := by
  constructor
  · intro b0 b1 b2 b3 rest h value
    have header : frameHeader b0 b1 b2 b3 = h :=
      BitVec.eq_of_toNat_eq ((frameHeader_toNat b0 b1 b2 b3).trans value.symm)
    have row : decode .frame32 (b0 :: b1 :: b2 :: b3 :: rest) = .ok
        (match classOfHeader h with
          | .locfam => .frameLocfam b2 rest
          | .heartbeat => .frameHeartbeat b2 rest
          | .unknown => .frameUnknown b2 b3 rest
          | .rejected => .frameRejected (b0 :: b1 :: b2 :: b3 :: rest)) := by
      rw [← header]
      rfl
    rw [row, classOfHeader_eq]
    split_ifs <;> rfl
  · intro f short
    rw [decode, decodeFrame_short short]

/-- Settles O10: six words, decoded. -/
theorem wordsOfTheTablesDecode : Obligations.WordsOfTheTablesDecode :=
  ⟨by decide, by decide, by decide, by decide, by decide, by decide⟩

/-! Bytes that are no instruction. -/

theorem step_of_rejected {s : State} {c : Command} {rest : List Command} {r : Reject} (next : s.inq = c :: rest)
    (rejected : decode c.fmt c.bytes = .rejected r) : step s = .refused (refusalOfReject r) := by
  unfold step
  rw [next]
  simp only [rejected]

/-- The select is the operation byte modulo 32 (R96). -/
theorem opSelect_eq_ofNat (b : Byte) : opSelect b = BitVec.ofNat 5 (b.toNat % 32) :=
  BitVec.eq_of_toNat_eq (by simp [opSelect])

theorem opOfSelect_reserved :
    ∀ n ∈ [0x03, 0x06, 0x07, 0x0A, 0x0B, 0x15, 0x16, 0x17, 0x1A, 0x1B, 0x1C, 0x1D, 0x1E, 0x1F],
      opOfSelect (BitVec.ofNat 5 n) = none := by decide

/-- Settles O6: the table of R96 has no row for a reserved select. -/
theorem reservedSelectIsRefused : Obligations.ReservedSelectIsRefused := by
  intro s b operands ov rest next reserved
  refine step_of_rejected (r := .reservedOp) next ?_
  simp only [decode, decodeOp, opSelect_eq_ofNat, opOfSelect_reserved _ reserved]

/-- How many operand bytes an operation takes, where their number is fixed (log entry 3). -/
def operandCount (o : OpName) : Option Nat :=
  match o with
  | .rsmClear => some 0
  | .rsmStatus => some 0
  | .crcStep => some 3
  | .idDecode => some 8
  | .statusDecode => some 1
  | .coordConvert => some 6
  | .ackBuild => some 3
  | _ => none

/-- An operation with a fixed number of operand bytes reads no other number of them. -/
theorem decodeOperands_of_length_ne {o : OpName} {n : Nat} {bs : Bytes} (fixed : operandCount o = some n)
    (other : bs.length ≠ n) : decodeOperands o bs = none := by
  cases o with
  | rsmClear | rsmStatus =>
    cases fixed
    exact if_neg (mt List.length_eq_zero_iff.mpr other)
  | crcStep | idDecode | statusDecode | coordConvert | ackBuild =>
    cases fixed
    simp only [decodeOperands]
    split
    · exact absurd rfl other
    · rfl
  | _ => cases fixed

/-- A one-bit operand is the byte 0 or 1. -/
theorem decodeBit_of_one_lt {x : Byte} (h : 1 < x.toNat) : decodeBit x = none := by
  rw [decodeBit, if_neg (by rintro rfl; simp at h), if_neg (by rintro rfl; simp at h)]

theorem decodeAxis_of_one_lt {x : Byte} (h : 1 < x.toNat) : decodeAxis x = none := by
  rw [decodeAxis, if_neg (by rintro rfl; simp at h), if_neg (by rintro rfl; simp at h)]

theorem decodeOperands_coordConvert_of_bit {bs : Bytes} {x : Byte} (at45 : bs[4]? = some x ∨ bs[5]? = some x)
    (h : 1 < x.toNat) : decodeOperands .coordConvert bs = none := by
  simp only [decodeOperands]
  split
  · next n a =>
    obtain hn | ha := at45
    · obtain rfl : n = x := Option.some.inj hn
      rw [decodeBit_of_one_lt h]
      rfl
    · obtain rfl : a = x := Option.some.inj ha
      rw [decodeAxis_of_one_lt h]
      cases decodeBit n <;> rfl
  · rfl

/-- Without a byte below 0x80 no natural number ends (log entry 3). -/
theorem decodeNat_of_countP {bs : Bytes} (h : bs.countP (fun x => x.toNat < 128) < 1) : decodeNat bs = none := by
  obtain ⟨-, none⟩ | ⟨n, r, -, count⟩ := decodeNat_cases bs
  · exact none
  · omega

/-- With one such byte there is a first natural number at most, and after it no second. -/
theorem decodeNat_twice_of_countP {bs : Bytes} (h : bs.countP (fun x => x.toNat < 128) < 2) {α : Type}
    (mk : Nat × Bytes → Nat × Bytes → α) :
    (decodeNat bs).bind (fun p => (decodeNat p.2).map (mk p)) = none := by
  obtain ⟨-, none⟩ | ⟨n, r, first, count⟩ := decodeNat_cases bs
  · rw [none]
    rfl
  · rw [first, Option.bind_some, decodeNat_of_countP (bs := r) (by omega)]
    rfl

/-- The command names an operation and its operand bytes are none of that operation. -/
def NoOperands (b : Byte) (operands : Bytes) : Prop :=
  ∃ o, opOfSelect (opSelect b) = some o ∧ decodeOperands o operands = none

theorem NoOperands.step_eq {s : State} {c : Command} {rest : List Command} {b : Byte} {operands : Bytes}
    (h : NoOperands b operands) (next : s.inq = c :: rest) (op5 : c.fmt = .op5) (bytes : c.bytes = b :: operands) :
    step s = .refused .badOperands := by
  obtain ⟨o, select, none⟩ := h
  refine step_of_rejected (r := .badOperands) next ?_
  rw [op5, bytes]
  simp only [decode, decodeOp, select, none]

theorem noOperands_of_mod {b : Byte} {operands : Bytes} {n : Nat} {o : OpName} (select : b.toNat % 32 = n)
    (names : opOfSelect (BitVec.ofNat 5 n) = some o) (none : decodeOperands o operands = none) :
    NoOperands b operands :=
  ⟨o, by rw [opSelect_eq_ofNat, select, names], none⟩

theorem decodeAck_of_no_match {bs : Bytes}
    (h : ∀ t s0 s1 c1 c0 : Byte, bs ≠ [0x78, 0x78, 0x05, t, s0, s1, c1, c0, 0x0d, 0x0a]) :
    decodeAck bs = .rejected .notAckPattern := by
  unfold decodeAck
  split
  · rw [if_neg]
    rintro ⟨rfl, rfl, rfl, rfl, rfl⟩
    exact h _ _ _ _ _ rfl
  · rfl

/-- Settles O60: clause by clause, the operation that the select names and why its operands are none. -/
theorem bytesOfNoInstructionAreRefused : Obligations.BytesOfNoInstructionAreRefused := by
  intro s c rest next
  refine ⟨fun op5 empty => ?_, fun b operands op5 bytes shape => ?_, fun ack80 noMatch => ?_, fun frame32 => ?_⟩
  · exact step_of_rejected (r := .noOperation) next (by rw [op5, empty]; rfl)
  · suffices h : NoOperands b operands from h.step_eq next op5 bytes
    simp only [List.mem_cons, List.not_mem_nil, or_false] at shape
    obtain ⟨n | n, h⟩ | ⟨n | n, h⟩ | ⟨n, h⟩ | ⟨n, h⟩ | ⟨n, h⟩ | ⟨n, x, at45, h⟩ | ⟨n | n | n, h⟩ | ⟨n | n, h⟩ := shape
    · exact noOperands_of_mod (o := .rsmClear) n rfl (if_neg h)
    · exact noOperands_of_mod (o := .rsmStatus) n rfl (if_neg h)
    · exact noOperands_of_mod (o := .crcStep) n rfl (decodeOperands_of_length_ne rfl h)
    · exact noOperands_of_mod (o := .ackBuild) n rfl (decodeOperands_of_length_ne rfl h)
    · exact noOperands_of_mod (o := .idDecode) n rfl (decodeOperands_of_length_ne rfl h)
    · exact noOperands_of_mod (o := .statusDecode) n rfl (decodeOperands_of_length_ne rfl h)
    · exact noOperands_of_mod (o := .coordConvert) n rfl (decodeOperands_of_length_ne rfl h)
    · exact noOperands_of_mod (o := .coordConvert) n rfl (decodeOperands_coordConvert_of_bit at45 h)
    · exact noOperands_of_mod (o := .rdU8) n rfl (Option.map_eq_none_iff.mpr (decodeNat_of_countP h))
    · exact noOperands_of_mod (o := .rdU16be) n rfl (Option.map_eq_none_iff.mpr (decodeNat_of_countP h))
    · exact noOperands_of_mod (o := .rdU32be) n rfl (Option.map_eq_none_iff.mpr (decodeNat_of_countP h))
    · exact noOperands_of_mod (o := .xorSum) n rfl (decodeNat_twice_of_countP h _)
    · exact noOperands_of_mod (o := .rdBytes) n rfl (decodeNat_twice_of_countP h _)
  · exact step_of_rejected (r := .notAckPattern) next (by rw [ack80]; exact decodeAck_of_no_match noMatch)
  · exact ⟨decodeFrame c.bytes, by rw [frame32]; rfl⟩

end Sys2Proof.Machine
end

section
/-! PROOFS. What the instructions change and leave unchanged, where they are refused, and what a refusal reports
(spec/20_memory.md section 3, spec/60_exceptions.md R240, R248). -/

namespace Sys2Proof.Machine

/-- Settles O25: every instruction but the two only delivers. -/
theorem otherUnitsOnlyDeliverOneResult : Obligations.OtherUnitsOnlyDeliverOneResult := by
  intro i s t completes notFeed notClear
  obtain ⟨r, -, rfl⟩ := exec_deliver completes notFeed notClear
  exact ⟨r, rfl⟩

/-- Settles O26: a feed that fits and one that overflows; RSM.CLEAR. -/
theorem feedAndClearChangeOnlyTheBuffer : Obligations.FeedAndClearChangeOnlyTheBuffer := by
  constructor
  · intro chunk s t completes
    obtain ⟨-, -, ⟨-, rfl⟩ | ⟨-, rfl⟩⟩ := exec_feed_cases completes
    · exact .inl ⟨_, _, rfl⟩
    · exact .inr rfl
  · intro s t completes
    obtain ⟨-, rfl⟩ := exec_clear_next completes
    rfl

/-- A delivered result is read back from the state. -/
theorem next_deliver_inj {s : State} {r r' : Result} :
    (.next (s.deliver r) : Outcome) = .next (s.deliver r') ↔ r = r' := by
  constructor
  · intro h
    have out : s.out ++ [r] = s.out ++ [r'] := congrArg State.out (Host.Outcome.next.inj h)
    exact List.singleton_inj.mp (List.append_cancel_left out)
  · rintro rfl
    rfl

/-! Where an instruction completes, of the five that are refused somewhere. -/

theorem exec_clear_of_not_feed {s : State} (h : s.busy ≠ .feed) : exec .rsmClear s = .next s.clear := by
  cases busy : s.busy with
  | feed => exact absurd busy h
  | idle => simp only [exec, execRsmClear, busy]
  | clear => simp only [exec, execRsmClear, busy]

theorem exec_xorSum_of_inside {src : Bytes} {lo hi : Nat} (s : State) (h : lo ≤ hi ∧ hi ≤ src.length) :
    exec (.xorSum src lo hi) s = .next (s.deliver (.xorByte (xorRange src lo hi))) := if_pos h

theorem exec_xorVerify_of_three_le {f : Bytes} (s : State) (h : 3 ≤ f.length) :
    exec (.xorVerify f) s = .next (s.deliver (.chk (checkAt s.params f (f.length - 3)))) :=
  if_neg (Nat.not_lt.mpr h)

theorem exec_ackFromframe_of_fourteen_le {f : Bytes} (s : State) (h : 14 ≤ f.length) :
    exec (.ackFromframe f) s = .next (s.deliver (.ack (ackFrame (byteAt f 3) (byteAt f 12) (byteAt f 13)))) :=
  if_neg (Nat.not_lt.mpr h)

/-! `Refuses` is the refusals. -/

theorem exec_of_refuses {i : Instr} {s : State} {r : Refusal} (h : Refuses i s r) : exec i s = .refused r := by
  cases h with
  | feedDuring chunk _ busy =>
    cases op : s.busy with
    | idle => exact absurd op busy
    | feed => simp only [exec, execRsmFeed, op]
    | clear => simp only [exec, execRsmFeed, op]
  | clearDuring _ busy => simp only [exec, execRsmClear, busy]
  | afterOverflow chunk _ idle overflowed => simp only [exec, execRsmFeed, idle, overflowed, if_true]
  | badRange src lo hi _ outside => exact if_neg (by omega)
  | notAFrame f _ short => exact if_pos short
  | ackShortFrame f _ short => exact if_pos short

theorem refuses_or_completes (i : Instr) (s : State) : (∃ r, Refuses i s r) ∨ ∃ t, exec i s = .next t := by
  cases i with
  | rsmFeed chunk =>
    by_cases idle : s.busy = .idle
    · cases overflow : s.ovf with
      | true => exact .inl ⟨_, .afterOverflow chunk s idle overflow⟩
      | false => exact .inr ⟨_, exec_feed_of_ready idle overflow⟩
    · exact .inl ⟨_, .feedDuring chunk s idle⟩
  | rsmClear =>
    by_cases busy : s.busy = .feed
    · exact .inl ⟨_, .clearDuring s busy⟩
    · exact .inr ⟨_, exec_clear_of_not_feed busy⟩
  | xorSum src lo hi =>
    by_cases inside : lo ≤ hi ∧ hi ≤ src.length
    · exact .inr ⟨_, exec_xorSum_of_inside s inside⟩
    · exact .inl ⟨_, .badRange src lo hi s (by omega)⟩
  | xorVerify f =>
    by_cases short : f.length < 3
    · exact .inl ⟨_, .notAFrame f s short⟩
    · exact .inr ⟨_, exec_xorVerify_of_three_le s (Nat.not_lt.mp short)⟩
  | ackFromframe f =>
    by_cases short : f.length < 14
    · exact .inl ⟨_, .ackShortFrame f s short⟩
    · exact .inr ⟨_, exec_ackFromframe_of_fourteen_le s (Nat.not_lt.mp short)⟩
  | _ => exact .inr ⟨_, rfl⟩

theorem refuses_of_exec {i : Instr} {s : State} {r : Refusal} (h : exec i s = .refused r) : Refuses i s r := by
  obtain ⟨r', refuses⟩ | ⟨t, completes⟩ := refuses_or_completes i s
  · obtain rfl : r' = r := Host.Outcome.refused.inj ((exec_of_refuses refuses).symm.trans h)
    exact refuses
  · rw [completes] at h
    cases h

/-- Settles O27: an instruction is refused with the reason of `Refuses`, or completes. -/
theorem refusalsAreTheSpecsAndAllElseCompletes : Obligations.RefusalsAreTheSpecsAndAllElseCompletes := fun i s =>
  ⟨fun _ => ⟨refuses_of_exec, exec_of_refuses⟩, fun never =>
    (refuses_or_completes i s).resolve_left fun ⟨r, refuses⟩ => never r refuses⟩

/-- Settles O14: the two overlaps among the refusals. -/
theorem overlappingOperationsRefused : Obligations.OverlappingOperationsRefused :=
  ⟨fun s chunk busy => exec_of_refuses (.feedDuring chunk s busy),
    fun s busy => exec_of_refuses (.clearDuring s busy)⟩

/-- Settles O33: the two domains of U3 among the refusals. -/
theorem xorOutsideItsDomainIsRefused : Obligations.XorOutsideItsDomainIsRefused :=
  ⟨fun s src lo hi outside => exec_of_refuses (.badRange src lo hi s outside),
    fun s f short => exec_of_refuses (.notAFrame f s short)⟩

/-- Settles O56: the conditions of the six constructors of `Refuses`, and of the model's own refusals. -/
theorem refusalsReportTheirCondition : Obligations.RefusalsReportTheirCondition := by
  refine ⟨fun i s r refused => ?_, rfl, rfl, rfl, rfl, rfl, rfl, rfl, rfl, rfl⟩
  cases refuses_of_exec refused with
  | feedDuring => exact ⟨.concurrentFeed, rfl, by decide, by decide⟩
  | clearDuring => exact ⟨.concurrentFeed, rfl, by decide, by decide⟩
  | afterOverflow => exact ⟨.feedAfterOverflow, rfl, by decide, by decide⟩
  | badRange => exact ⟨.badRange, rfl, by decide, by decide⟩
  | notAFrame => exact ⟨.notAFrame, rfl, by decide, by decide⟩
  | ackShortFrame => exact ⟨.ackShortFrame, rfl, by decide, by decide⟩

/-- CHK reports a mismatch exactly when the carried byte and the computed one differ (R243). -/
theorem checkAt_condition (p : Params) (f : Bytes) (c : Nat) :
    (checkAt p f c).condition =
      if (checkAt p f c).expected = (checkAt p f c).actual then .noError else .checksumMismatch := by
  rw [Chk.condition, checkAt]
  simp only [beq_iff_eq]

/-- Settles O57: one equation per kind of result; XOR.VERIFY delivers its check. -/
theorem resultsReportTheirCondition : Obligations.ResultsReportTheirCondition := by
  refine ⟨rfl, rfl, fun _ => rfl, fun _ => rfl, fun c => ?_, fun _ => rfl, fun _ => rfl, fun _ => rfl, fun _ _ => rfl,
    fun _ => rfl, fun _ => rfl, fun _ => rfl, fun _ => rfl, fun _ => rfl, fun _ => rfl, fun _ => rfl, fun _ => rfl,
    fun _ => rfl, fun s f long => ⟨_, exec_xorVerify_of_three_le s long, ?_, ?_⟩⟩
  · cases c <;> rfl
  · intro differ
    rw [checkAt_condition, if_neg differ]
  · intro agree
    rw [checkAt_condition, if_pos agree]

theorem exec_coordConvert (raw : BitVec 32) (neg : Bool) (axis : Axis) (s : State) :
    exec (.coordConvert raw neg axis) s = .next (s.deliver (.coord (convertCoord raw neg axis))) := rfl

/-- The letter's bit is the hemisphere bit (R33, R199). -/
theorem hemisphereLetter_code (axis : Axis) (neg : Bool) : (hemisphereLetter axis neg).code = neg := by
  cases axis <;> cases neg <;> rfl

/-- Settles O55: the tables of codes, and the letter of COORD.CONVERT. -/
theorem codesAreTheSpecsNumbers : Obligations.CodesAreTheSpecsNumbers := by
  refine ⟨by decide, by decide, by decide, by decide, fun s raw neg axis => ?_⟩
  exact ⟨_, exec_coordConvert raw neg axis s, hemisphereLetter_code axis neg⟩

end Sys2Proof.Machine
end

section
/-! PROOFS. The checksum units and the echoed acknowledgements (spec/41_crc16_x25.md R150, spec/42_xor_checksum.md R170
to R172, spec/44_ack_assembler.md R231, spec/30_encoding.md R88). -/

namespace Sys2Proof.Machine

/-- Settles O28: the registers of the bit loop. -/
theorem crcStepShiftsOutEightBits : Obligations.CrcStepShiftsOutEightBits := by
  intro s reg b
  refine ⟨fun k => crcBits k (reg ^^^ b.setWidth 16), crcStep_start_toNat reg b, fun k _ => ?_, exec_crcStep reg b s⟩
  simp only [crcBits_succ, crcBit_toNat]

theorem exec_crcStep_delivers_iff {s : State} {reg v : BitVec 16} {b : Byte} :
    exec (.crcStep reg b) s = .next { s with out := s.out ++ [.crcReg v] } ↔ crcStep reg b = v :=
  next_deliver_inj.trans (Result.crcReg.injEq _ _).to_iff

/-- Settles O30: what CRC.STEP delivers is `crcStep`, a bijection for each byte. -/
theorem crcStepIsABijection : Obligations.CrcStepIsABijection := by
  intro s b v
  simp only [exec_crcStep_delivers_iff]
  exact (crcStep_bijective b).existsUnique v

/-- Settles O31: the bits of `xorRange` are parities. -/
theorem xorSumIsTheParityOfEachBit : Obligations.XorSumIsTheParityOfEachBit := fun s src lo hi ordered inside =>
  ⟨xorRange src lo hi, exec_xorSum_of_inside s ⟨ordered, inside⟩, fun j _ => xorRange_bit src lo hi j⟩

/-- The three values of XOR_FROM are the offsets 2, 3 and 4 (R172). -/
theorem eq_xorFromOffset {x : XorFrom} {start : Nat} (h2 : x = .lengthByte → start = 2)
    (h3 : x = .messageType → start = 3) (h4 : x = .body → start = 4) : start = xorFromOffset x := by
  cases x with
  | lengthByte => exact h2 rfl
  | messageType => exact h3 rfl
  | body => exact h4 rfl

/-- Settles O32: the check at the byte three from the end; its span is XOR.SUM's range, or empty. -/
theorem xorVerifyComparesCarriedAndComputed : Obligations.XorVerifyComparesCarriedAndComputed := by
  intro s f c start len h2 h3 h4
  obtain rfl := eq_xorFromOffset h2 h3 h4
  have verify := exec_xorVerify_of_three_le s (show 3 ≤ f.length by omega)
  rw [show f.length - 3 = c by omega] at verify
  refine ⟨byteAt f c, xorSpan s.params f c, _, verify, getElem?_eq_byteAt (by omega), fun startsBefore => ?_,
    fun startsAfter => if_neg (by omega), beq_iff_eq⟩
  rw [exec_xorSum_of_inside s ⟨startsBefore, by omega⟩, xorSpan, if_pos startsBefore]
  rfl

/-- Settles O51: the three echoed bytes are inside the sequence, and the frame is ACK.BUILD's of them. -/
theorem ackFromFrameEchoesTypeAndSerial : Obligations.AckFromFrameEchoesTypeAndSerial := by
  refine ⟨fun s f long => ?_, fun s f short => exec_of_refuses (.ackShortFrame f s short)⟩
  exact ⟨byteAt f 3, byteAt f 12, byteAt f 13, _, getElem?_eq_byteAt (by omega), getElem?_eq_byteAt (by omega),
    getElem?_eq_byteAt (by omega), exec_ackFromframe_of_fourteen_le s long, exec_ackBuild _ _ _ s⟩

theorem exec_frameAck (t s0 s1 : Byte) (c : BitVec 16) (s : State) :
    exec (.frameAck t s0 s1 c) s = .next (s.deliver (.ack (ackFrame t s0 s1))) := rfl

/-- Settles O52: FRAME.ACK and ACK.BUILD deliver one frame; a word with the CRC of its body is that frame, byte for
byte. -/
theorem frameAckDeliversTheAcknowledgement : Obligations.FrameAckDeliversTheAcknowledgement := by
  refine ⟨fun s t s0 s1 c => ⟨_, exec_frameAck t s0 s1 c s, exec_ackBuild t s0 s1 s⟩,
    fun s t s0 s1 c two delivers => ?_⟩
  obtain ⟨crc, -⟩ := Result.crc.inj (next_deliver_inj.mp delivers)
  rw [exec_frameAck, ackFrame_eq_of_be16Bytes_crc16 (congrArg be16Bytes crc)]
  rfl

end Sys2Proof.Machine
end

section
/-! PROOFS. U1 REASM (spec/40_reassembler.md): a feed that completes is a reassembly, and what reassembly keeps. -/

namespace Sys2Proof.Machine

/-! RSM.FEED as a reassembly, in both directions. -/

theorem exec_feed_of_reassembles {s : State} {chunk rest : Bytes} {fs : List Frame} (can : CanFeed s chunk)
    (h : Reassembles (s.buf ++ chunk) fs rest) :
    exec (.rsmFeed chunk) s = .next ((s.setBuf rest).deliver (.frames fs)) := by
  obtain ⟨idle, noOverflow, room⟩ := can
  rw [exec_feed_of_ready idle noOverflow, feed_of_fits (fits_iff.mpr room), scan_eq_iff.mpr h]

/-- A feed that delivers frames had room, and they are those of its reassembly. -/
theorem reassembles_of_exec_feed {s t : State} {chunk : Bytes} {fs : List Frame}
    (completes : exec (.rsmFeed chunk) s = .next t) (emits : t.out = s.out ++ [.frames fs]) :
    Reassembles (s.buf ++ chunk) fs t.buf ∧ t = (s.setBuf t.buf).deliver (.frames fs) := by
  obtain ⟨-, -, ⟨-, rfl⟩ | ⟨-, rfl⟩⟩ := exec_feed_cases completes
  · obtain rfl : (scan (s.buf ++ chunk)).1 = fs := by simpa using emits
    exact ⟨scan_reassembles _, rfl⟩
  · simp at emits

/-- Settles O11: the scan reassembles, and no other frames and rest are right. -/
theorem feedReassemblesBufferAndChunk : Obligations.FeedReassemblesBufferAndChunk := fun _ _ can =>
  ⟨⟨_, _, scan_reassembles _⟩, fun _ _ h => exec_feed_of_reassembles can h⟩

/-- Settles O12: the chunk does not fit, and `ovf = 1` refuses every later feed. -/
theorem overflowSetsFlagAndTakesNothing : Obligations.OverflowSetsFlagAndTakesNothing := by
  intro s chunk cap idle noOverflow finite tooLong
  have full : fits s.params s.buf chunk = false :=
    Bool.eq_false_iff.mpr fun fit => Nat.not_lt.mpr (fits_iff.mp fit cap finite) tooLong
  constructor
  · rw [exec_feed_of_ready idle noOverflow, feed_of_not_fits full]
    rfl
  · intro later
    exact exec_of_refuses (.afterOverflow later _ idle rfl)

/-- Settles O15: RSM.CLEAR completes unless a feed is in progress, and leaves the buffer and the flag empty. -/
theorem clearLeavesResetBuffer : Obligations.ClearLeavesResetBuffer := fun s notFeed =>
  ⟨exec_clear_of_not_feed notFeed, create_buf s.params, create_ovf s.params⟩

/-! The state machine's state (R22). -/

theorem exec_rsmStatus (s : State) : exec .rsmStatus s = .next (s.deliver (.status (statusWord s))) := rfl

theorem rsmState_eq_empty_iff {buf : Bytes} : rsmState buf = .empty ↔ buf = [] := by
  cases buf <;> simp [rsmState]

theorem rsmState_eq_accumulating_iff {buf : Bytes} : rsmState buf = .accumulating ↔ buf ≠ [] := by
  cases buf <;> simp [rsmState]

/-- Settles O16: the fields of the status word. -/
theorem statusReportsBufferAndFlag : Obligations.StatusReportsBufferAndFlag := fun s =>
  ⟨statusWord s, exec_rsmStatus s, rsmState_eq_empty_iff, rsmState_eq_accumulating_iff, rfl, rfl⟩

theorem frameIncomplete_eq_false_iff {s : State} : frameIncomplete s = false ↔ s.buf = [] := by
  rw [← rsmState_eq_empty_iff, frameIncomplete]
  cases rsmState s.buf <;> simp [RsmState.code]

/-- A buffer that satisfies its invariant is not empty exactly when it holds a frame that waits for its end marker. -/
theorem BufferInvariant.ne_nil_iff {buf : Bytes} (h : BufferInvariant buf) :
    buf ≠ [] ↔ StartAt buf 0 ∧ ∀ i, 4 ≤ i → ¬ EndAt buf i := by
  constructor
  · intro notEmpty
    obtain ⟨-, byte0, byte1, noEnd⟩ := h.resolve_left notEmpty
    exact ⟨⟨byte0, byte1⟩, noEnd⟩
  · rintro ⟨start, -⟩ rfl
    exact absurd start.lt_length (Nat.not_lt_zero _)

/-- Settles O59: after a feed the buffer satisfies its invariant, under which EMPTY and ACCUMULATING are what R246
says. -/
theorem frameIncompleteIsAccumulating : Obligations.FrameIncompleteIsAccumulating := by
  intro s chunk can
  have scanned := scan_reassembles (s.buf ++ chunk)
  refine ⟨_, _, exec_feed_of_reassembles can scanned, ?_, frameIncomplete_eq_false_iff, exec_rsmStatus _, rfl⟩
  rw [← Bool.not_eq_false, frameIncomplete_eq_false_iff]
  exact scanned.invariant.ne_nil_iff

/-- Settles O18: what the scan leaves satisfies the invariant, and an overflow sets `ovf`. -/
theorem feedEstablishesBufferInvariant : Obligations.FeedEstablishesBufferInvariant := by
  intro s t chunk completes noOverflow
  obtain ⟨-, -, ⟨-, rfl⟩ | ⟨-, rfl⟩⟩ := exec_feed_cases completes
  · exact (scan_reassembles _).invariant
  · exact Bool.noConfusion noOverflow

end Sys2Proof.Machine
end

section
/-! PROOFS. The frames that U1 emits: their form and their number (spec/40_reassembler.md section 1). -/

namespace Sys2Proof.Machine

/-- The frame cut at the first end marker at or after offset 4 is delimitable (R133). -/
theorem delimitable_take {bs : Bytes} {e : Nat} (start : StartAt bs 0) (h4 : 4 ≤ e) (ends : EndAt bs e)
    (least : ∀ i, 4 ≤ i → i < e → ¬ EndAt bs i) : Delimitable (bs.take (e + 2)) := by
  have inside : e + 1 < bs.length := ends.lt_length
  have length : (bs.take (e + 2)).length = e + 2 := by
    rw [List.length_take]
    omega
  have sameBytes {b0 b1 : Byte} {i : Nat} (hi : i ≤ e) : PairAt (bs.take (e + 2)) b0 b1 i ↔ PairAt bs b0 b1 i := by
    have := pairAt_append_left (xs := bs.take (e + 2)) (bs.drop (e + 2)) (b0 := b0) (b1 := b1) (i := i) (by omega)
    rw [← this, List.take_append_drop]
  refine ⟨by omega, (sameBytes (Nat.zero_le e)).mpr start, ?_, fun i hi hlen => ?_⟩
  · rw [length, Nat.add_sub_cancel]
    exact (sameBytes (Nat.le_refl e)).mpr ends
  · exact fun h => least i hi (by omega) ((sameBytes (by omega)).mp h)

theorem startAt_drop_zero {bs : Bytes} {k : Nat} : StartAt (bs.drop k) 0 ↔ StartAt bs k := pairAt_drop bs _ _ k 0

theorem Reassembles.delimitable {bs rest : Bytes} {fs : List Frame} (h : Reassembles bs fs rest) :
    ∀ f ∈ fs, Delimitable f := by
  induction h with
  | garbage => exact fun f hf => absurd hf List.not_mem_nil
  | wait => exact fun f hf => absurd hf List.not_mem_nil
  | emit bs k e fs rest start first h4 ends least more ih =>
    intro f hf
    obtain rfl | hf := List.mem_cons.mp hf
    · exact delimitable_take (startAt_drop_zero.mpr start) h4 ends least
    · exact ih f hf

/-- Settles O17: the emitted frames are those of a reassembly. -/
theorem emittedFramesAreDelimited : Obligations.EmittedFramesAreDelimited := by
  intro s t chunk fs completes emits
  obtain ⟨reassembled, -⟩ := reassembles_of_exec_feed completes emits
  exact reassembled.delimitable

/-- Each emitted frame takes at least six bytes, and what is kept is taken from none of them. -/
theorem Reassembles.length_bound {bs rest : Bytes} {fs : List Frame} (h : Reassembles bs fs rest) :
    6 * fs.length + rest.length ≤ bs.length := by
  induction h with
  | garbage => exact Nat.zero_le _
  | wait => simp
  | emit bs k e fs rest start first h4 ends least more ih =>
    have inside := ends.lt_length
    simp only [List.length_drop, List.length_cons] at ih inside ⊢
    omega

/-- Settles O19: the bound, on the buffer with the chunk. -/
theorem feedEmitsAtMostOneFramePerSixBytes : Obligations.FeedEmitsAtMostOneFramePerSixBytes := by
  intro s t chunk fs completes emits
  obtain ⟨reassembled, -⟩ := reassembles_of_exec_feed completes emits
  exact List.length_append ▸ reassembled.length_bound

end Sys2Proof.Machine
end

section
/-! PROOFS. U1 loses no byte and changes no order (spec/40_reassembler.md R128). -/

namespace Sys2Proof.Machine

/-- `bs` is, in order, dropped bytes and a frame in turn, a dropped tail, and the bytes kept. -/
def Conserves (bs : Bytes) (fs : List Frame) (rest : Bytes) : Prop :=
  ∃ (drops : List Bytes) (tail : Bytes), drops.length = fs.length ∧
    bs = (List.zipWith (· ++ ·) drops fs).flatten ++ tail ++ rest

theorem conserves_drop (tail rest : Bytes) : Conserves (tail ++ rest) [] rest := ⟨[], tail, rfl, rfl⟩

theorem Conserves.emit {bs rest : Bytes} {fs : List Frame} (h : Conserves bs fs rest) (drop : Bytes) (f : Frame) :
    Conserves (drop ++ f ++ bs) (f :: fs) rest := by
  obtain ⟨drops, tail, count, rfl⟩ := h
  exact ⟨drop :: drops, tail, by simp [count], by simp⟩

/-- Dropped bytes in front belong to the first drop, or to the tail where there is no frame. -/
theorem Conserves.prepend {bs rest : Bytes} {fs : List Frame} (h : Conserves bs fs rest) (drop : Bytes) :
    Conserves (drop ++ bs) fs rest := by
  obtain ⟨drops, tail, count, rfl⟩ := h
  match drops, fs, count with
  | [], [], _ => exact ⟨[], drop ++ tail, rfl, by simp⟩
  | d :: drops, f :: fs, count => exact ⟨(drop ++ d) :: drops, tail, count, by simp⟩

/-- What is kept is taken up again, with what follows. -/
theorem Conserves.append {bs kept more rest : Bytes} {fs gs : List Frame} (h : Conserves bs fs kept)
    (h' : Conserves (kept ++ more) gs rest) : Conserves (bs ++ more) (fs ++ gs) rest := by
  obtain ⟨drops, tail, count, rfl⟩ := h
  obtain ⟨drops', tail', count', split⟩ := h'.prepend tail
  refine ⟨drops ++ drops', tail', by simp [count, count'], ?_⟩
  rw [List.zipWith_append count, List.flatten_append]
  simp only [List.append_assoc] at split ⊢
  rw [split]

theorem Reassembles.conserves {bs rest : Bytes} {fs : List Frame} (h : Reassembles bs fs rest) :
    Conserves bs fs rest := by
  induction h with
  | garbage bs => simpa using conserves_drop bs []
  | wait bs k => simpa using conserves_drop (bs.take k) (bs.drop k)
  | emit bs k e fs rest start first h4 ends least more ih =>
    have := ih.emit (bs.take k) ((bs.drop k).take (e + 2))
    rwa [← List.drop_drop, List.append_assoc, List.take_append_drop, List.take_append_drop] at this

theorem FeedRun.conserves {s u : State} {chunks : List Bytes} {fs : List Frame} (h : FeedRun s chunks fs u) :
    Conserves (s.buf ++ chunks.flatten) fs u.buf := by
  induction h with
  | done s => simpa using conserves_drop [] s.buf
  | more s t u c cs fs gs feeds emits next ih =>
    obtain ⟨reassembled, -⟩ := reassembles_of_exec_feed feeds emits
    rw [List.flatten_cons, ← List.append_assoc]
    exact reassembled.conserves.append ih

/-- Settles O20: one feed conserves, and the next takes up what it kept. -/
theorem feedsConserveEveryByte : Obligations.FeedsConserveEveryByte := fun _ _ _ _ run => run.conserves

end Sys2Proof.Machine
end

section
/-! PROOFS. Chunk cuts and garbage around frames (spec/40_reassembler.md R129, R130). -/

namespace Sys2Proof.Machine

/-- Bytes in front in which no start marker begins do not change a reassembly: they are dropped. -/
theorem Reassembles.prepend {bs rest : Bytes} {fs : List Frame} (h : Reassembles bs fs rest) {front : Bytes}
    (noStart : ∀ i, i < front.length → ¬ StartAt (front ++ bs) i) : Reassembles (front ++ bs) fs rest := by
  have shifted (i : Nat) : StartAt (front ++ bs) (front.length + i) ↔ StartAt bs i := pairAt_append_right front bs _ _ i
  have dropped (k : Nat) : (front ++ bs).drop (front.length + k) = bs.drop k := List.drop_length_add_append k
  have first {k : Nat} (hk : ∀ i, i < k → ¬ StartAt bs i) (i : Nat) (hi : i < front.length + k) :
      ¬ StartAt (front ++ bs) i := by
    by_cases inFront : i < front.length
    · exact noStart i inFront
    · obtain ⟨j, rfl⟩ := Nat.exists_eq_add_of_le (Nat.not_lt.mp inFront)
      exact fun start => hk j (by omega) ((shifted j).mp start)
  cases h with
  | garbage _ h => exact .garbage _ fun i => first (k := i + 1) (fun j _ => h j) i (by omega)
  | wait _ k start hk noEnd =>
    rw [← dropped k] at noEnd ⊢
    exact .wait _ _ ((shifted k).mpr start) (first hk) noEnd
  | emit _ k e fs rest start hk h4 ends least more =>
    rw [← dropped, ← Nat.add_assoc] at more
    rw [← dropped k] at ends least ⊢
    exact .emit _ _ e fs rest ((shifted k).mpr start) (first hk) h4 ends least more

/-- A start marker that begins in the first part and is not in it lies across the cut. -/
theorem startAt_append_cut {xs ys : Bytes} {i : Nat} (hi : i < xs.length) (start : StartAt (xs ++ ys) i)
    (notInside : ¬ StartAt xs i) : xs.getLast? = some 0x78 ∧ ys.head? = some 0x78 := by
  have last : i + 1 = xs.length := by
    by_contra other
    exact notInside ((pairAt_append_left ys (by omega)).mp start)
  obtain ⟨byte, next⟩ := start
  rw [List.getElem?_append_left hi] at byte
  rw [List.getElem?_append_right (by omega), show i + 1 - xs.length = 0 by omega] at next
  exact ⟨by rw [List.getLast?_eq_getElem?, ← last, Nat.add_sub_cancel, byte], by rw [List.head?_eq_getElem?, next]⟩

/-- Reassembling the first part and then what it keeps with the second is reassembling the whole, unless a start marker
that lay across the cut was dropped (R129). -/
theorem Reassembles.append {xs b kept rest : Bytes} {fs gs : List Frame} (h : Reassembles xs fs kept)
    (h' : Reassembles (kept ++ b) gs rest)
    (noCut : ¬ (kept = [] ∧ xs.getLast? = some 0x78 ∧ b.head? = some 0x78)) :
    Reassembles (xs ++ b) (fs ++ gs) rest := by
  induction h with
  | garbage xs none => exact h'.prepend fun i hi start => noCut ⟨rfl, startAt_append_cut hi start (none i)⟩
  | wait xs k start first noEnd =>
    have inside : k + 1 < xs.length := start.lt_length
    have front := h'.prepend (front := xs.take k)
    rw [← List.append_assoc, List.take_append_drop] at front
    refine front fun i hi => ?_
    rw [List.length_take] at hi
    rw [StartAt, pairAt_append_left b (by omega)]
    exact first i (by omega)
  | emit xs k e fs kept start first h4 ends least more ih =>
    have inside : k + 1 < xs.length := start.lt_length
    have endInside : e + 1 < xs.length - k := List.length_drop ▸ ends.lt_length
    have cut : (xs ++ b).drop k = xs.drop k ++ b := List.drop_append_of_le_length (by omega)
    have sameStart {i : Nat} (hi : i ≤ k) : StartAt (xs ++ b) i ↔ StartAt xs i := pairAt_append_left b (by omega)
    have sameEnd {i : Nat} (hi : i ≤ e) : EndAt ((xs ++ b).drop k) i ↔ EndAt (xs.drop k) i := by
      rw [cut]
      exact pairAt_append_left b (by rw [List.length_drop]; omega)
    have frame : (xs.drop k).take (e + 2) = ((xs ++ b).drop k).take (e + 2) := by
      rw [cut, List.take_append_of_le_length (by rw [List.length_drop]; omega)]
    rw [List.cons_append, frame]
    refine .emit _ k e _ _ ((sameStart (Nat.le_refl k)).mpr start) (fun i hi => ?_) h4
      ((sameEnd (Nat.le_refl e)).mpr ends) (fun i hi hlt => ?_) ?_
    · rw [sameStart hi.le]
      exact first i hi
    · rw [sameEnd hlt.le]
      exact least i hi hlt
    · rw [List.drop_append_of_le_length (by omega)]
      refine ih h' fun ⟨empty, last, head⟩ => noCut ⟨empty, ?_, head⟩
      rw [List.getLast?_drop] at last
      split at last
      · cases last
      · exact last

/-- Settles O21: the two feeds reassemble the two parts, which is the reassembly of the whole. -/
theorem chunkCutsDoNotMatter : Obligations.ChunkCutsDoNotMatter := by
  intro s t u a b fs gs can feedsA emitsA feedsB emitsB noCut
  obtain ⟨partA, ht⟩ := reassembles_of_exec_feed feedsA emitsA
  obtain ⟨partB, hu⟩ := reassembles_of_exec_feed feedsB emitsB
  have whole := partA.append partB noCut
  rw [List.append_assoc] at whole
  rw [exec_feed_of_reassembles can whole, hu, ht]
  rfl

/-- Settles O22: a single `78` is no start marker. -/
theorem loneStartByteIsLost : Obligations.LoneStartByteIsLost := by
  intro s empty can
  have dropped : Reassembles (s.buf ++ [0x78]) [] s.buf := by
    rw [empty]
    exact .garbage _ fun i start => absurd start.lt_length (by simp)
  exact exec_feed_of_reassembles can dropped

/-- A buffer that satisfies its invariant reassembles to itself. -/
theorem BufferInvariant.reassembles {buf : Bytes} (h : BufferInvariant buf) : Reassembles buf [] buf := by
  obtain rfl | ⟨-, byte0, byte1, noEnd⟩ := h
  · exact .garbage [] fun i start => absurd start.lt_length (Nat.not_lt_zero _)
  · exact .wait buf 0 ⟨byte0, byte1⟩ (fun i hi => absurd hi (Nat.not_lt_zero i)) noEnd

/-- Settles O24: nothing is appended, and the buffer reassembles to itself. -/
theorem emptyChunkChangesNothing : Obligations.EmptyChunkChangesNothing := by
  intro s inv noOverflow
  have kept : Reassembles (s.buf ++ []) [] s.buf := (List.append_nil s.buf).symm ▸ inv.buffer.reassembles
  exact exec_feed_of_reassembles ⟨inv.idle, noOverflow, inv.capacity⟩ kept

/-- A delimitable frame at the front of a sequence is emitted, and the rest is reassembled. -/
theorem Delimitable.reassembles {f : Frame} {bs rest : Bytes} {fs : List Frame} (h : Delimitable f)
    (more : Reassembles bs fs rest) : Reassembles (f ++ bs) (f :: fs) rest := by
  obtain ⟨long, start, ends, noEarlier⟩ := h
  have length : f.length - 2 + 2 = f.length := Nat.sub_add_cancel (by omega)
  have sameBytes {b0 b1 : Byte} {i : Nat} (hi : i + 2 ≤ f.length) : PairAt (f ++ bs) b0 b1 i ↔ PairAt f b0 b1 i :=
    pairAt_append_left bs (by omega)
  have emitted := Reassembles.emit (f ++ bs) 0 (f.length - 2) fs rest ((sameBytes (by omega)).mpr start)
    (fun i hi => absurd hi (Nat.not_lt_zero i)) (by omega) ((sameBytes (by omega)).mpr ends)
    (fun i h4 hi => (sameBytes (by omega)).not.mpr (noEarlier i h4 (by omega)))
    (by rwa [Nat.zero_add, length, List.drop_left])
  rwa [length, List.drop_zero, List.take_left] at emitted

/-- No start marker begins in garbage, whatever follows it. -/
theorem Garbage.noStart {g : Bytes} (h : Garbage g) (bs : Bytes) {i : Nat} (hi : i < g.length) :
    ¬ StartAt (g ++ bs) i := fun start => h.2 (startAt_append_cut hi start (h.1 i)).1

theorem reassembles_among_garbage {parts : List (Bytes × Frame)} {last : Bytes}
    (delimited : ∀ p ∈ parts, Garbage p.1 ∧ Delimitable p.2) (garbage : Garbage last) :
    Reassembles ((parts.flatMap fun p => p.1 ++ p.2) ++ last) (parts.map (·.2)) [] := by
  induction parts with
  | nil => exact .garbage last garbage.1
  | cons p parts ih =>
    obtain ⟨front, frame⟩ := delimited p List.mem_cons_self
    have more := ih fun q hq => delimited q (List.mem_cons_of_mem p hq)
    rw [List.flatMap_cons, List.append_assoc, List.append_assoc]
    exact (frame.reassembles more).prepend fun i hi => front.noStart _ hi

/-- Settles O23: part by part, the garbage is dropped and the frame emitted. -/
theorem framesAmongGarbageComeOutInOrder : Obligations.FramesAmongGarbageComeOutInOrder := by
  intro s parts last empty delimited garbage can
  have parted := reassembles_among_garbage delimited garbage
  rw [exec_feed_of_reassembles can (by rwa [empty, List.nil_append] : Reassembles _ _ s.buf)]
  rfl

end Sys2Proof.Machine
end

section
/-! PROOFS. The readers and the field decoders (spec/43_field_extractor.md R185, R188, R189, R199). -/

namespace Sys2Proof.Machine

theorem exec_rdU8 (src : Bytes) (off : Nat) (s : State) :
    exec (.rdU8 src off) s = .next (s.deliver (readResult .u8 (readU8 src off))) := rfl

theorem exec_rdBytes (src : Bytes) (off n : Nat) (s : State) :
    exec (.rdBytes src off n) s = .next (s.deliver (readResult .bytes (slice src off n))) := rfl

/-! A reader delivers what it has read. -/

theorem exec_rdU8_of_read {f : Bytes} {off : Nat} {v : BitVec 8} (s : State) (h : readU8 f off = some v) :
    exec (.rdU8 f off) s = .next (s.deliver (.u8 v)) := by rw [exec_rdU8, h]; rfl

theorem exec_rdU16be_of_read {f : Bytes} {off : Nat} {v : BitVec 16} (s : State) (h : readU16be f off = some v) :
    exec (.rdU16be f off) s = .next (s.deliver (.u16 v)) := by rw [exec_rdU16be, h]; rfl

theorem exec_rdU32be_of_read {f : Bytes} {off : Nat} {v : BitVec 32} (s : State) (h : readU32be f off = some v) :
    exec (.rdU32be f off) s = .next (s.deliver (.u32 v)) := by rw [exec_rdU32be, h]; rfl

theorem exec_rdBytes_of_read {f bs : Bytes} {off n : Nat} (s : State) (h : slice f off n = some bs) :
    exec (.rdBytes f off n) s = .next (s.deliver (.bytes bs)) := by rw [exec_rdBytes, h]; rfl

/-- Settles O34: a read in range has a value and delivers it, a read past the end has none. -/
theorem readU8DeliversTheByteOrError : Obligations.ReadU8DeliversTheByteOrError := by
  refine fun s src off => ⟨fun b byte => exec_rdU8_of_read s (readU8_eq byte), fun outside => ?_⟩
  rw [exec_rdU8, readU8_of_lt outside]
  rfl

/-- Settles O37: the slice is the bytes at the offsets from `off` on, or there is none. -/
theorem readBytesIsAllOrNothing : Obligations.ReadBytesIsAllOrNothing := by
  intro s src off n
  constructor
  · intro inside
    refine ⟨(src.drop off).take n, ?_, fun k hk => ?_, exec_rdBytes_of_read s (slice_of_le inside)⟩
    · rw [List.length_take, List.length_drop]
      omega
    · rw [List.getElem?_take_of_lt hk, List.getElem?_drop]
  · intro outside
    rw [exec_rdBytes, slice_of_lt outside]
    rfl

/-! The digits of an identifier (R189). -/

theorem exec_idDecode (b : Bytes8) (s : State) :
    exec (.idDecode b) s = .next (s.deliver (.digits (decodeId s.params.idDigitOrder (bytes8List b)))) := rfl

theorem lowNibble_toNat (b : Byte) : (b.extractLsb' 0 4).toNat = b.toNat % 16 := by
  rw [BitVec.extractLsb'_toNat, Nat.shiftRight_zero]

theorem highNibble_toNat (b : Byte) : (b.extractLsb' 4 4).toNat = b.toNat / 16 := by
  have bound : b.toNat < 256 := b.isLt
  rw [BitVec.extractLsb'_toNat, Nat.shiftRight_eq_div_pow]
  omega

/-- The two nibbles of a byte, in the order of `ID_DIGIT_ORDER` (R52). -/
theorem idByteDigits_cases (order : DigitOrder) (b : Byte) : ∃ x y : BitVec 4, idByteDigits order b = [x, y] ∧
    (order = .lowFirst → x.toNat = b.toNat % 16 ∧ y.toNat = b.toNat / 16) ∧
    (order = .highFirst → x.toNat = b.toNat / 16 ∧ y.toNat = b.toNat % 16) := by
  cases order with
  | lowFirst => exact ⟨_, _, rfl, fun _ => ⟨lowNibble_toNat b, highNibble_toNat b⟩, DigitOrder.noConfusion⟩
  | highFirst => exact ⟨_, _, rfl, DigitOrder.noConfusion, fun _ => ⟨highNibble_toNat b, lowNibble_toNat b⟩⟩

theorem idDigitList_cons (order : DigitOrder) (b : Byte) (bs : Bytes) :
    idDigitList order (b :: bs) = idByteDigits order b ++ idDigitList order bs := List.flatMap_cons

theorem idDigitList_length (order : DigitOrder) (bs : Bytes) : (idDigitList order bs).length = 2 * bs.length := by
  induction bs with
  | nil => rfl
  | cons b bs ih =>
    obtain ⟨x, y, digits, -⟩ := idByteDigits_cases order b
    rw [idDigitList_cons, digits, List.length_append, ih, List.length_cons]
    simp only [List.length_cons, List.length_nil]
    omega

/-- Byte `k` gives digits `2k` and `2k + 1`. -/
theorem idDigitList_getElem? {order : DigitOrder} {bs : Bytes} {k : Nat} {b : Byte} {x y : BitVec 4}
    (byte : bs[k]? = some b) (digits : idByteDigits order b = [x, y]) :
    (idDigitList order bs)[2 * k]? = some x ∧ (idDigitList order bs)[2 * k + 1]? = some y := by
  induction bs generalizing k with
  | nil => simp at byte
  | cons c bs ih =>
    rw [idDigitList_cons]
    cases k with
    | zero =>
      obtain rfl : c = b := Option.some.inj byte
      rw [digits]
      exact ⟨rfl, rfl⟩
    | succ k =>
      obtain ⟨x', y', digits', -⟩ := idByteDigits_cases order c
      rw [digits']
      exact ih byte

theorem nondecimal_iff (ds : List (BitVec 4)) : nondecimal ds = true ↔ ∃ x ∈ ds, 9 < x.toNat := by
  simp only [nondecimal, List.any_eq_true, decide_eq_true_eq]

/-- Settles O38: the digits of the eight bytes in turn. -/
theorem idDecodeSplitsEachByteIntoDigits : Obligations.IdDecodeSplitsEachByteIntoDigits := by
  intro s b0 b1 b2 b3 b4 b5 b6 b7
  refine ⟨_, exec_idDecode _ s, idDigitList_length _ _, fun k b byte => ?_, nondecimal_iff _⟩
  obtain ⟨x, y, digits, low, high⟩ := idByteDigits_cases s.params.idDigitOrder b
  obtain ⟨first, second⟩ := idDigitList_getElem? byte digits
  exact ⟨x, y, first, second, low, high⟩

/-- Settles O40: the fields of the converted coordinate; the rounding is that of `(10 * raw + 9) / 18`. -/
theorem coordConvertRoundsToNearestMicrodegree : Obligations.CoordConvertRoundsToNearestMicrodegree := by
  intro s raw neg axis
  have udeg : (convertCoord raw neg axis).udeg.toNat = (10 * raw.toNat + 9) / 18 := microDegrees_toNat raw
  have deg : (convertCoord raw neg axis).deg * 1800000 = if neg then -(raw.toNat : Rat) else (raw.toNat : Rat) :=
    degrees_mul raw neg
  exact ⟨convertCoord raw neg axis, exec_coordConvert raw neg axis s, rfl, rfl, by rintro rfl rfl; rfl,
    by rintro rfl rfl; rfl, by rintro rfl rfl; rfl, by rintro rfl rfl; rfl, by rintro rfl; exact deg,
    by rintro rfl; exact deg, udeg, by omega, by omega⟩

end Sys2Proof.Machine
end

section
/-! PROOFS. FX.EXTRACT and the frame rows (spec/43_field_extractor.md R191 to R197,
spec/60_exceptions.md R241 to R245). -/

namespace Sys2Proof.Machine

/-- Settles O47: what is delivered is a function of the parameters and the sequence. -/
theorem extractIsTotalAndPure : Obligations.ExtractIsTotalAndPure := fun f s s' params =>
  ⟨extract s.params f, exec_fxExtract f s, by rw [params]; exact exec_fxExtract f s'⟩

/-- Every sequence is rejected, or has the start marker and a message type (R190, R191). -/
theorem rejected_or_typed (f : Bytes) : (f.length < 4 ∨ ¬ StartAt f 0) ∨ ∃ t, StartAt f 0 ∧ f[3]? = some t := by
  by_cases short : f.length < 4
  · exact .inl (.inl short)
  · by_cases start : StartAt f 0
    · exact .inr ⟨_, start, getElem?_eq_byteAt (by omega)⟩
    · exact .inl (.inr start)

/-! What REC says beside its fields' values: the error, `gps_ready` and the validity mask. -/

/-- The error, `gps_ready` and `vmask` of REC. -/
def Rec.outcome (r : Rec) : ErrCode × Bool × List Group := (r.err, r.gpsReady, r.vmask)

theorem Rec.outcome_eq_iff {r : Rec} {e : ErrCode} {g : Bool} {m : List Group} :
    r.outcome = (e, g, m) ↔ r.err = e ∧ r.gpsReady = g ∧ r.vmask = m := by
  simp only [Rec.outcome, Prod.mk.injEq]

/-! The rejections (R191). -/

theorem extractRejected_cls (f : Bytes) : (extractRejected f).cls = .rejected := by
  unfold extractRejected
  split <;> rfl

theorem extractRejected_flen (f : Bytes) : (extractRejected f).flen = f.length := by
  unfold extractRejected
  split <;> rfl

theorem extractRejected_outcome_of_start {f : Bytes} (h : StartAt f 0) :
    (extractRejected f).outcome = (.outOfRange, false, []) := by
  rw [extractRejected, if_pos (hasStart_iff.mpr h)]
  rfl

theorem extractRejected_outcome_of_no_start {f : Bytes} (h : ¬ StartAt f 0) :
    (extractRejected f).outcome = (.invalidStartMarker, false, []) := by
  rw [extractRejected, if_neg (mt hasStart_iff.mp h)]
  rfl

/-- Settles O42: the two rejections. -/
theorem extractRejectsWithoutFields : Obligations.ExtractRejectsWithoutFields := by
  intro s f noType
  refine ⟨extractRejected f, by rw [exec_fxExtract, extract_rejected noType]; rfl, extractRejected_cls f,
    extractRejected_flen f, ?_⟩
  by_cases start : StartAt f 0
  · obtain ⟨err, gpsReady, vmask⟩ := Rec.outcome_eq_iff.mp (extractRejected_outcome_of_start start)
    exact ⟨gpsReady, vmask, fun noStart => absurd start noStart, fun _ => err⟩
  · obtain ⟨err, gpsReady, vmask⟩ := Rec.outcome_eq_iff.mp (extractRejected_outcome_of_no_start start)
    exact ⟨gpsReady, vmask, fun _ => err, fun start' => absurd start' start⟩

/-! The location family (R192 to R195). -/

/-- R195's table: the outcome of a location-family frame of `n` bytes. -/
def locfamOutcome (n : Nat) : ErrCode × Bool × List Group :=
  if n < 12 then (.outOfRange, false, [.hdr])
  else if n < 14 then (.outOfRange, false, [.hdr, .id])
  else if n < 28 then (.noError, false, [.hdr, .id, .seq])
  else if n < 34 then (.outOfRange, true, [.hdr, .id, .seq, .lat, .lon, .alt, .spd, .crs])
  else if n < 35 then (.outOfRange, true, [.hdr, .id, .seq, .lat, .lon, .alt, .spd, .crs, .ts])
  else (.noError, true, [.hdr, .id, .seq, .lat, .lon, .alt, .spd, .crs, .ts, .st])

section
variable {n : Nat}

theorem locfamOutcome_noId (h : n < 12) : locfamOutcome n = (.outOfRange, false, [.hdr]) := if_pos h

theorem locfamOutcome_noSeq (h12 : 12 ≤ n) (h : n < 14) : locfamOutcome n = (.outOfRange, false, [.hdr, .id]) := by
  rw [locfamOutcome, if_neg (by omega), if_pos h]

theorem locfamOutcome_noFix (h14 : 14 ≤ n) (h : n < 28) :
    locfamOutcome n = (.noError, false, [.hdr, .id, .seq]) := by
  rw [locfamOutcome, if_neg (by omega), if_neg (by omega), if_pos h]

theorem locfamOutcome_noTs (h28 : 28 ≤ n) (h : n < 34) :
    locfamOutcome n = (.outOfRange, true, [.hdr, .id, .seq, .lat, .lon, .alt, .spd, .crs]) := by
  rw [locfamOutcome, if_neg (by omega), if_neg (by omega), if_neg (by omega), if_pos h]

theorem locfamOutcome_noStatus (h : n = 34) :
    locfamOutcome n = (.outOfRange, true, [.hdr, .id, .seq, .lat, .lon, .alt, .spd, .crs, .ts]) := by
  subst h
  rfl

theorem locfamOutcome_full (h : 35 ≤ n) :
    locfamOutcome n = (.noError, true, [.hdr, .id, .seq, .lat, .lon, .alt, .spd, .crs, .ts, .st]) := by
  rw [locfamOutcome, if_neg (by omega), if_neg (by omega), if_neg (by omega), if_neg (by omega), if_neg (by omega)]

end

theorem extractLocfam_outcome (p : Params) (f : Bytes) : (extractLocfam p f).outcome = locfamOutcome f.length := by
  obtain ⟨short, h⟩ | ⟨b, h12, -, ⟨short, h⟩ | ⟨q, h14, -, ⟨short, h⟩ |
    ⟨lat, lon, alt, spd, course, h28, -, -, -, -, -, ⟨short, h⟩ |
    ⟨yy, mo, dd, hh, mi, ss, h34, -, ⟨short, h⟩ | ⟨st, h35, -, h⟩⟩⟩⟩⟩ := locfam_cases p f
  · rw [h, locfamOutcome_noId short]
    rfl
  · rw [h, locfamOutcome_noSeq h12 short]
    rfl
  · rw [h, locfamOutcome_noFix h14 short]
    rfl
  · rw [h, locfamOutcome_noTs h28 short]
    rfl
  · rw [h, locfamOutcome_noStatus (by omega)]
    rfl
  · rw [h, locfamOutcome_full h35]
    rfl

/-- The class, the length and the header stand in REC from the start (R191). -/
theorem extractLocfam_header (p : Params) (f : Bytes) : (extractLocfam p f).cls = .locfam ∧
    (extractLocfam p f).flen = f.length ∧ (extractLocfam p f).hdr = (recHeader .locfam f).hdr := by
  obtain ⟨-, h⟩ | ⟨b, -, -, ⟨-, h⟩ | ⟨q, -, -, ⟨-, h⟩ | ⟨lat, lon, alt, spd, course, -, -, -, -, -, -, ⟨-, h⟩ |
    ⟨yy, mo, dd, hh, mi, ss, -, -, ⟨-, h⟩ | ⟨st, -, -, h⟩⟩⟩⟩⟩ := locfam_cases p f <;>
  · rw [h]
    exact ⟨rfl, rfl, rfl⟩

theorem exec_fxExtract_of_locfam {f : Bytes} (s : State) (start : StartAt f 0) (type : f[3]? = some 0x01) :
    exec (.fxExtract f) s = .next (s.deliver (.record (extractLocfam s.params f))) := by
  rw [exec_fxExtract, extract_locfam start type]

/-- Settles O43: the rows of R195's table. -/
theorem locationOutcomeByLength : Obligations.LocationOutcomeByLength := by
  intro s f start type
  obtain ⟨cls, flen, -⟩ := extractLocfam_header s.params f
  have row {e : ErrCode} {g : Bool} {m : List Group} (h : locfamOutcome f.length = (e, g, m)) :=
    Rec.outcome_eq_iff.mp ((extractLocfam_outcome s.params f).trans h)
  exact ⟨_, exec_fxExtract_of_locfam s start type, cls, flen, fun h => row (locfamOutcome_noId h),
    fun h12 h => row (locfamOutcome_noSeq h12 h), fun h14 h => row (locfamOutcome_noFix h14 h),
    fun h28 h => row (locfamOutcome_noTs h28 h), fun h => row (locfamOutcome_noStatus h),
    fun h => row (locfamOutcome_full h)⟩

/-! The fields of a location-family frame, group by group (R192). -/

/-- With a fix the identifier, the sequence number and the five fields of the fix are the reads at their offsets. -/
theorem extractLocfam_fix (p : Params) {f : Bytes} (h28 : 28 ≤ f.length) :
    ∃ (b : Bytes8) (q : BitVec 16) (lat lon : BitVec 32) (alt spd course : BitVec 16) (ts : Option TsFields)
      (st : Option StFields) (err : ErrCode),
      slice f 4 8 = some (bytes8List b) ∧ readU16be f 12 = some q ∧ readU32be f 14 = some lat ∧
      readU32be f 18 = some lon ∧ readU16be f 22 = some alt ∧ readU16be f 24 = some spd ∧
      readU16be f 26 = some course ∧ extractLocfam p f =
        { recCourse p f (bytes8List b) q lat lon alt spd course with ts := ts, st := st, err := err } := by
  obtain ⟨short, -⟩ | ⟨b, -, hb, ⟨short, -⟩ | ⟨q, -, hq, ⟨short, -⟩ |
    ⟨lat, lon, alt, spd, course, -, hlat, hlon, halt, hspd, hcrs, ⟨-, h⟩ |
    ⟨yy, mo, dd, hh, mi, ss, -, -, ⟨-, h⟩ | ⟨st, -, -, h⟩⟩⟩⟩⟩ := locfam_cases p f
  · omega
  · omega
  · omega
  · exact ⟨b, q, lat, lon, alt, spd, course, none, none, _, hb, hq, hlat, hlon, halt, hspd, hcrs, h⟩
  · exact ⟨b, q, lat, lon, alt, spd, course, _, none, _, hb, hq, hlat, hlon, halt, hspd, hcrs, h⟩
  · exact ⟨b, q, lat, lon, alt, spd, course, _, _, _, hb, hq, hlat, hlon, halt, hspd, hcrs, h⟩

theorem extractLocfam_ident (p : Params) {f : Bytes} (h12 : 12 ≤ f.length) : ∃ b : Bytes8,
    slice f 4 8 = some (bytes8List b) ∧ (extractLocfam p f).ident = some (identFields p (bytes8List b)) := by
  by_cases h28 : 28 ≤ f.length
  · obtain ⟨b, q, lat, lon, alt, spd, course, ts, st, err, hb, -, -, -, -, -, -, h⟩ := extractLocfam_fix p h28
    exact ⟨b, hb, by rw [h]; rfl⟩
  · obtain ⟨b, hb⟩ := slice_eight (f := f) (off := 4) (by omega)
    by_cases h14 : f.length < 14
    · exact ⟨b, hb, by rw [locfam_noSeq hb h14]⟩
    · obtain ⟨-, -, q, -, -, -, hq⟩ := readU16be_eq (f := f) (off := 12) (by omega)
      exact ⟨b, hb, by rw [locfam_noFix hb hq (by omega)]⟩

theorem extractLocfam_seq (p : Params) {f : Bytes} (h14 : 14 ≤ f.length) : ∃ q,
    readU16be f 12 = some q ∧ (extractLocfam p f).seq = some q := by
  by_cases h28 : 28 ≤ f.length
  · obtain ⟨b, q, lat, lon, alt, spd, course, ts, st, err, -, hq, -, -, -, -, -, h⟩ := extractLocfam_fix p h28
    exact ⟨q, hq, by rw [h]; rfl⟩
  · obtain ⟨b, hb⟩ := slice_eight (f := f) (off := 4) (by omega)
    obtain ⟨-, -, q, -, -, -, hq⟩ := readU16be_eq (f := f) (off := 12) (by omega)
    exact ⟨q, hq, by rw [locfam_noFix hb hq (by omega)]⟩

theorem extractLocfam_ts (p : Params) {f : Bytes} (h34 : 34 ≤ f.length) : ∃ yy mo dd hh mi ss : Byte,
    slice f 28 6 = some [yy, mo, dd, hh, mi, ss] ∧
    (extractLocfam p f).ts = some (tsFields [yy, mo, dd, hh, mi, ss]) := by
  obtain ⟨short, -⟩ | ⟨b, -, -, ⟨short, -⟩ | ⟨q, -, -, ⟨short, -⟩ | ⟨lat, lon, alt, spd, course, -, -, -, -, -, -,
    ⟨short, -⟩ | ⟨yy, mo, dd, hh, mi, ss, -, ht, ⟨-, h⟩ | ⟨st, -, -, h⟩⟩⟩⟩⟩ := locfam_cases p f
  · omega
  · omega
  · omega
  · omega
  · exact ⟨yy, mo, dd, hh, mi, ss, ht, by rw [h]⟩
  · exact ⟨yy, mo, dd, hh, mi, ss, ht, by rw [h]⟩

theorem extractLocfam_st (p : Params) {f : Bytes} (h35 : 35 ≤ f.length) : ∃ (st : Byte) (lat lon : BitVec 32),
    readU8 f 34 = some st ∧ (extractLocfam p f).st = some (stFields st lat lon) ∧
    (extractLocfam p f).latRaw = some lat ∧ (extractLocfam p f).lonRaw = some lon := by
  obtain ⟨short, -⟩ | ⟨b, -, -, ⟨short, -⟩ | ⟨q, -, -, ⟨short, -⟩ | ⟨lat, lon, alt, spd, course, -, -, -, -, -, -,
    ⟨short, -⟩ | ⟨yy, mo, dd, hh, mi, ss, -, -, ⟨short, -⟩ | ⟨st, -, hst, h⟩⟩⟩⟩⟩ := locfam_cases p f
  · omega
  · omega
  · omega
  · omega
  · omega
  · exact ⟨st, lat, lon, hst, by rw [h], by rw [h]; rfl, by rw [h]; rfl⟩

/-- Settles O44: group by group, the read at the group's offset and the decoder's result for it. -/
theorem locationFieldsAreTheReadsAtTheirOffsets : Obligations.LocationFieldsAreTheReadsAtTheirOffsets := by
  intro s f start type
  refine ⟨_, exec_fxExtract_of_locfam s start type, ?_, fun h12 => ?_, fun h14 => ?_, fun h28 => ?_, fun h34 => ?_,
    fun h35 => ?_⟩
  · obtain ⟨-, -, hdr⟩ := extractLocfam_header s.params f
    rw [hdr]
    exact recHeader_hdr type
  · obtain ⟨b, read, ident⟩ := extractLocfam_ident s.params h12
    exact ⟨b, _, ident, exec_rdBytes_of_read s read, exec_idDecode b s⟩
  · obtain ⟨q, read, seq⟩ := extractLocfam_seq s.params h14
    exact ⟨q, seq, exec_rdU16be_of_read s read⟩
  · obtain ⟨b, q, lat, lon, alt, spd, course, ts, st, err, -, -, hlat, hlon, halt, hspd, hcrs, h⟩ :=
      extractLocfam_fix s.params h28
    rw [h]
    exact ⟨lat, lon, alt, spd, course, rfl, exec_rdU32be_of_read s hlat, rfl, exec_rdU32be_of_read s hlon, rfl,
      exec_rdU16be_of_read s halt, rfl, exec_rdU16be_of_read s hspd, rfl, exec_rdU16be_of_read s hcrs⟩
  · obtain ⟨yy, mo, dd, hh, mi, ss, read, ts⟩ := extractLocfam_ts s.params h34
    exact ⟨yy, mo, dd, hh, mi, ss, _, ts, year_toNat yy, exec_rdBytes_of_read s read⟩
  · obtain ⟨st, lat, lon, read, fields, hlat, hlon⟩ := extractLocfam_st s.params h35
    exact ⟨_, lat, lon, _, _, fields, hlat, hlon, exec_rdU8_of_read s read, exec_statusDecode st s,
      exec_coordConvert lat _ .lat s, exec_coordConvert lon _ .lon s, rfl, rfl, rfl, rfl⟩

/-! Heartbeats (R196). -/

theorem exec_fxExtract_of_heartbeat {f : Bytes} (s : State) (start : StartAt f 0) (type : f[3]? = some 0x04) :
    exec (.fxExtract f) s = .next (s.deliver (.record (extractHeartbeat s.params f))) := by
  rw [exec_fxExtract, extract_heartbeat start type]

theorem extractHeartbeat_header (p : Params) (f : Bytes) : (extractHeartbeat p f).cls = .heartbeat ∧
    (extractHeartbeat p f).flen = f.length ∧ (extractHeartbeat p f).gpsReady = false ∧
    (extractHeartbeat p f).hdr = (recHeader .heartbeat f).hdr := by
  obtain ⟨-, h⟩ | ⟨b, -, -, h⟩ := heartbeat_cases p f <;>
  · rw [h]
    exact ⟨rfl, rfl, rfl, rfl⟩

theorem extractHeartbeat_outcome_of_short (p : Params) {f : Bytes} (short : f.length < 12) :
    (extractHeartbeat p f).outcome = (.outOfRange, false, [.hdr]) := by
  obtain ⟨-, h⟩ | ⟨b, h12, -, -⟩ := heartbeat_cases p f
  · rw [h]
    rfl
  · omega

theorem extractHeartbeat_of_long (p : Params) {f : Bytes} (long : 12 ≤ f.length) : ∃ b : Bytes8,
    slice f 4 8 = some (bytes8List b) ∧ extractHeartbeat p f =
      { recHeader .heartbeat f with ident := some (identFields p (bytes8List b)) } := by
  obtain ⟨short, -⟩ | ⟨b, -, hb, h⟩ := heartbeat_cases p f
  · omega
  · exact ⟨b, hb, h⟩

/-- Settles O45: the two lengths of a heartbeat. -/
theorem heartbeatGivesIdentifierOnly : Obligations.HeartbeatGivesIdentifierOnly := by
  intro s f start type
  obtain ⟨cls, flen, gpsReady, hdr⟩ := extractHeartbeat_header s.params f
  refine ⟨_, exec_fxExtract_of_heartbeat s start type, cls, flen, gpsReady, hdr ▸ recHeader_hdr type, fun short => ?_,
    fun long => ?_⟩
  · obtain ⟨err, -, vmask⟩ := Rec.outcome_eq_iff.mp (extractHeartbeat_outcome_of_short s.params short)
    exact ⟨err, vmask⟩
  · obtain ⟨b, read, h⟩ := extractHeartbeat_of_long s.params long
    rw [h]
    exact ⟨rfl, rfl, b, _, rfl, exec_rdBytes_of_read s read, exec_idDecode b s⟩

/-! All classes. -/

/-- What holds of every REC, of its outcome, class and length. -/
def RecForm (r : Rec) : Prop :=
  r.vmask <+: Group.all ∧ (r.err = .noError ∨ r.err = .outOfRange ∨ r.err = .invalidStartMarker) ∧
  (r.gpsReady = true → r.cls = .locfam ∧ 28 ≤ r.flen)

theorem recForm_of_outcome {r : Rec} {e : ErrCode} {g : Bool} {m : List Group} (h : r.outcome = (e, g, m))
    (groups : m <+: Group.all) (error : e = .noError ∨ e = .outOfRange ∨ e = .invalidStartMarker)
    (fix : g = true → r.cls = .locfam ∧ 28 ≤ r.flen) : RecForm r := by
  obtain ⟨rfl, rfl, rfl⟩ := Rec.outcome_eq_iff.mp h
  exact ⟨groups, error, fix⟩

theorem recForm_extractLocfam (p : Params) (f : Bytes) : RecForm (extractLocfam p f) := by
  obtain ⟨cls, flen, -⟩ := extractLocfam_header p f
  have outcome := extractLocfam_outcome p f
  unfold locfamOutcome at outcome
  split_ifs at outcome
  · exact recForm_of_outcome outcome (by decide) (by decide) nofun
  · exact recForm_of_outcome outcome (by decide) (by decide) nofun
  · exact recForm_of_outcome outcome (by decide) (by decide) nofun
  · exact recForm_of_outcome outcome (by decide) (by decide) fun _ => ⟨cls, by omega⟩
  · exact recForm_of_outcome outcome (by decide) (by decide) fun _ => ⟨cls, by omega⟩
  · exact recForm_of_outcome outcome (by decide) (by decide) fun _ => ⟨cls, by omega⟩

theorem recForm_extract (p : Params) (f : Bytes) : RecForm (extract p f) := by
  obtain noType | ⟨t, start, type⟩ := rejected_or_typed f
  · rw [extract_rejected noType]
    by_cases start : StartAt f 0
    · exact recForm_of_outcome (extractRejected_outcome_of_start start) (by decide) (by decide) nofun
    · exact recForm_of_outcome (extractRejected_outcome_of_no_start start) (by decide) (by decide) nofun
  by_cases locfam : t = 0x01
  · rw [extract_locfam start (locfam ▸ type)]
    exact recForm_extractLocfam p f
  by_cases heartbeat : t = 0x04
  · rw [extract_heartbeat start (heartbeat ▸ type)]
    by_cases short : f.length < 12
    · exact recForm_of_outcome (extractHeartbeat_outcome_of_short p short) (by decide) (by decide) nofun
    · obtain ⟨b, -, h⟩ := extractHeartbeat_of_long p (Nat.not_lt.mp short)
      rw [h]
      exact recForm_of_outcome (e := .noError) (g := false) (m := [.hdr, .id]) rfl (by decide) (by decide) nofun
  · rw [extract_unknown start type locfam heartbeat]
    exact recForm_of_outcome (e := .noError) (g := false) (m := [.hdr]) rfl (by decide) (by decide) nofun

/-- Settles O48: the form of REC, class by class. -/
theorem recordGroupsAreAPrefix : Obligations.RecordGroupsAreAPrefix := by
  intro f s r delivers
  obtain rfl := Result.record.inj (next_deliver_inj.mp delivers)
  exact recForm_extract s.params f

/-- Settles O49: each row's path is the one FX.EXTRACT takes for its bytes. -/
theorem frameClassesDeliverTheirExtraction : Obligations.FrameClassesDeliverTheirExtraction := by
  refine ⟨fun s l rest => ?_, fun s l rest => ?_, fun s l t rest notLocfam notHeartbeat => ?_, fun s f noType => ?_⟩
  · obtain ⟨cls, -, -⟩ := extractLocfam_header s.params (locfamBytes l rest)
    exact ⟨_, rfl, exec_fxExtract_of_locfam s ⟨rfl, rfl⟩ rfl, cls⟩
  · obtain ⟨cls, -, -, -⟩ := extractHeartbeat_header s.params (heartbeatBytes l rest)
    exact ⟨_, rfl, exec_fxExtract_of_heartbeat s ⟨rfl, rfl⟩ rfl, cls⟩
  · exact ⟨_, rfl, exec_fxExtract_of_unknown s ⟨rfl, rfl⟩ rfl notLocfam notHeartbeat, recHeader_cls .unknown _⟩
  · exact ⟨_, rfl, by rw [exec_fxExtract, extract_rejected noType]; rfl, extractRejected_cls f⟩

/-! The condition of REC (R240 to R245). -/

/-- An error of REC is its condition. -/
theorem Rec.condition_of_outcome {r : Rec} {e : ErrCode} {g : Bool} {m : List Group} (h : r.outcome = (e, g, m))
    (error : e ≠ .noError) : r.condition = e := by
  obtain ⟨rfl, -, -⟩ := Rec.outcome_eq_iff.mp h
  exact if_neg error

theorem Rec.condition_of_locfam {r : Rec} {g : Bool} {m : List Group} (h : r.outcome = (.noError, g, m))
    (cls : r.cls = .locfam) : r.condition = if g then .noError else .gpsNotReady := by
  obtain ⟨err, rfl, -⟩ := Rec.outcome_eq_iff.mp h
  simp only [Rec.condition, err, cls, if_true]

/-- Settles O58: the condition of each class, by the outcome of its lengths. -/
theorem extractReportsItsCondition : Obligations.ExtractReportsItsCondition := by
  intro s f
  refine ⟨_, exec_fxExtract f s, fun noStart => ?_, fun start short => ?_, fun start type => ?_, fun start type => ?_,
    fun t start type notLocfam notHeartbeat => ?_⟩
  · rw [extract_rejected (.inr noStart)]
    exact Rec.condition_of_outcome (extractRejected_outcome_of_no_start noStart) (by decide)
  · rw [extract_rejected (.inl short)]
    exact Rec.condition_of_outcome (extractRejected_outcome_of_start start) (by decide)
  · rw [extract_locfam start type]
    obtain ⟨cls, -, -⟩ := extractLocfam_header s.params f
    have outcome := extractLocfam_outcome s.params f
    refine ⟨fun h => ?_, fun h14 h => ?_, fun h28 _ => ?_, fun h => ?_⟩
    · by_cases h12 : f.length < 12
      · exact Rec.condition_of_outcome (outcome.trans (locfamOutcome_noId h12)) (by decide)
      · exact Rec.condition_of_outcome (outcome.trans (locfamOutcome_noSeq (Nat.not_lt.mp h12) h)) (by decide)
    · exact Rec.condition_of_locfam (outcome.trans (locfamOutcome_noFix h14 h)) cls
    · by_cases h34 : f.length < 34
      · exact Rec.condition_of_outcome (outcome.trans (locfamOutcome_noTs h28 h34)) (by decide)
      · exact Rec.condition_of_outcome (outcome.trans (locfamOutcome_noStatus (by omega))) (by decide)
    · exact Rec.condition_of_locfam (outcome.trans (locfamOutcome_full h)) cls
  · rw [extract_heartbeat start type]
    refine ⟨fun short => ?_, fun long => ?_⟩
    · exact Rec.condition_of_outcome (extractHeartbeat_outcome_of_short s.params short) (by decide)
    · obtain ⟨b, -, h⟩ := extractHeartbeat_of_long s.params long
      rw [h]
      rfl
  · rw [extract_unknown start type notLocfam notHeartbeat]
    rfl

end Sys2Proof.Machine
end

section
/-! PROOFS. Runs (spec/70_reset_and_hazards.md R286): the fault of a run as a delivered result, and safe runs. -/

namespace Sys2Proof.Machine

/-- A run only adds results, and it has faulted when it began with `ovf = 1` or delivered an overflow. -/
theorem run_output {k : Nat} {s t : State} (h : Sys2Proof.core.run k s = .next t) :
    ∃ rs, t.out = s.out ++ rs ∧ (RunFaulted k s ↔ s.ovf = true ∨ .overflow ∈ rs) := by
  induction k generalizing s with
  | zero =>
    obtain rfl : s = t := Host.Outcome.next.inj h
    exact ⟨[], by simp, by simp [runFaulted_zero]⟩
  | succ k ih =>
    obtain ⟨u, hstep, hrun⟩ := run_succ_eq_next.mp h
    obtain ⟨rs, out, faulted⟩ := ih hrun
    rw [runFaulted_succ hstep, faulted]
    obtain ⟨same, noNew⟩ | ⟨new, -, set⟩ | ⟨r, notOverflow, new, kept⟩ := step_output hstep
    · exact ⟨rs, same ▸ out, by tauto⟩
    · exact ⟨.overflow :: rs, by rw [out, new, List.append_assoc]; rfl, by simp [set]⟩
    · exact ⟨r :: rs, by rw [out, new, List.append_assoc]; rfl, by simp [kept, notOverflow.symm]⟩

/-- Settles O53: the run begins with `ovf = 0`; with nothing delivered before, its results are all of
the output port. -/
theorem runFaultsExactlyWhenItOverflows : Obligations.RunFaultsExactlyWhenItOverflows := by
  intro k s t noOverflow run
  obtain ⟨rs, out, faulted⟩ := run_output run
  have delivered : RunFaulted k s ↔ .overflow ∈ rs := by simpa [noOverflow] using faulted
  refine ⟨⟨rs, out, delivered⟩, fun nothing => ?_⟩
  rw [delivered, RunResult.faulted, runResult, out, nothing, List.nil_append, List.contains_iff_mem]

theorem run_keeps_inv {k : Nat} {s t : State} (inv : Inv s) (h : Sys2Proof.core.run k s = .next t) : Inv t := by
  induction k generalizing s with
  | zero =>
    obtain rfl : s = t := Host.Outcome.next.inj h
    exact inv
  | succ k ih =>
    obtain ⟨u, hstep, hrun⟩ := run_succ_eq_next.mp h
    exact ih (stepKeepsInvariant s u inv hstep) hrun

/-- Settles O54: every state of a run that is not refused meets the invariant, so it is safe unless it is faulted. -/
theorem safeRunsAreTheUnfaultedOnes : Obligations.SafeRunsAreTheUnfaultedOnes := by
  intro k s inv
  constructor
  · intro safe
    obtain ⟨t, run, -⟩ := safe k (Nat.le_refl k)
    refine ⟨⟨t, run⟩, fun ⟨j, u, hj, hrun, faulted⟩ => ?_⟩
    obtain ⟨v, hrun', -, notFaulted⟩ := safe j hj
    obtain rfl : u = v := Host.Outcome.next.inj (hrun.symm.trans hrun')
    exact notFaulted faulted
  · rintro ⟨⟨t, run⟩, notFaulted⟩ j hj
    obtain ⟨u, hrun⟩ := run_prefix run hj
    exact ⟨u, hrun, run_keeps_inv inv hrun, fun faulted => notFaulted ⟨j, u, hj, hrun, faulted⟩⟩

end Sys2Proof.Machine
end
